-- ==== Sys2Proof/Word.lean ====
section
/-! DEFINITION. The words of the block: 32-bit words, bytes and nibbles (spec 00_scope.md R11). -/

namespace Sys2Proof

/-- A 32-bit unsigned value (R11); every register and every access has this width (R62). -/
abbrev Word := BitVec 32

/-- An 8-bit field: a configuration byte `PinCfg` (R7). -/
abbrev Byte := BitVec 8

/-- A 4-bit field: a multiplexer selector `PMux` (R7). -/
abbrev Nibble := BitVec 4

end Sys2Proof
end

