-- ==== Sys2Proof/Syntax.lean ====
section
/-! DEFINITION. The fourteen commands of spec/opcode_table.json, and the register kinds and configuration modes they name. -/

namespace Sys2Proof

/-- The single-bit register kinds of `rslv.bit` (30_encoding.md R89, codes 0 to 6). -/
inductive Kind where
  | dir | dirclr | dirset | out | outclr | outset | input
  deriving DecidableEq, Repr

/-- The commands. A pin is an index (R86: 0..255 is encodable, only 0..63 is valid at execution, R183);
a selector is the 4-bit data stored in the nibble; a level is 1 = high. -/
inductive Instr where
  /-- `cfg.out p` (R150). -/
  | cfgOut (pin : Nat)
  /-- `cfg.in p` (R151). -/
  | cfgIn (pin : Nat)
  /-- `cfg.pd p` (R152). -/
  | cfgPd (pin : Nat)
  /-- `cfg.pu p` (R153). -/
  | cfgPu (pin : Nat)
  /-- `cfg.pf p, sel` (R154). -/
  | cfgPf (pin : Nat) (sel : Nibble)
  /-- `cfg.pfa p, sel` (R155). -/
  | cfgPfa (pin : Nat) (sel : Nibble)
  /-- `cfg.an p` (R156). -/
  | cfgAn (pin : Nat)
  /-- `setlvl p, l` (R130). -/
  | setlvl (pin : Nat) (lvl : Bool)
  /-- `getlvl p` (R131). -/
  | getlvl (pin : Nat)
  /-- `getcfg p` (R170). -/
  | getcfg (pin : Nat)
  /-- `getmux p` (R171). -/
  | getmux (pin : Nat)
  /-- `rslv.bit p, kind` (R110). -/
  | rslvBit (pin : Nat) (kind : Kind)
  /-- `rslv.cfg p` (R111). -/
  | rslvCfg (pin : Nat)
  /-- `rslv.mux p` (R112). -/
  | rslvMux (pin : Nat)
  deriving DecidableEq, Repr

/-- The configuration modes (30_encoding.md R88, MODE 0 to 6): the closed enumeration of `configure`. -/
inductive Mode where
  | output | input | inputPulldown | inputPullup
  | peripheral (sel : Nibble) | peripheralAlt (sel : Nibble) | analog
  deriving DecidableEq, Repr

/-- The pin operand of a command (R90: every operation uses PIN). -/
def Instr.pin : Instr → Nat
  | .cfgOut p | .cfgIn p | .cfgPd p | .cfgPu p | .cfgPf p _ | .cfgPfa p _ | .cfgAn p => p
  | .setlvl p _ | .getlvl p | .getcfg p | .getmux p => p
  | .rslvBit p _ | .rslvCfg p | .rslvMux p => p

/-- `configure(pin, mode)` is one command per mode (R3, R88, R96). -/
def Instr.configure (pin : Nat) : Mode → Instr
  | .output => .cfgOut pin
  | .input => .cfgIn pin
  | .inputPulldown => .cfgPd pin
  | .inputPullup => .cfgPu pin
  | .peripheral s => .cfgPf pin s
  | .peripheralAlt s => .cfgPfa pin s
  | .analog => .cfgAn pin

end Sys2Proof
end

