-- ==== Sys2Proof/WellFormed.lean ====
section
/-! DEFINITION. Which commands have an encoding: the pin fits the 8-bit PIN field (30_encoding.md R86). Every other
operand's type already has exactly the encodable values. -/

namespace Sys2Proof

/-- The pin index fits `PIN = w[11:4]`, 0..255 (R86, R95). Pins 64..255 are well-formed and fault at execution (R183). -/
abbrev Instr.WellFormed (i : Instr) : Prop := i.pin < 256

end Sys2Proof
end

