-- ==== Sys2Proof/Decode.lean ====
section
/-! DEFINITION. The command word: the total decoder of 30_encoding.md R91, the encoder of R92, and the host's view of
the decoder, `decodeTableWord`. -/

namespace Sys2Proof

/-- The field `w[lo+n-1:lo]` (R86): taken from its bits without scaling or sign extension. -/
def wordField (w : Word) (lo n : Nat) : BitVec n := w.extractLsb' lo n

/-- `OP = w[3:0]`. -/
def opField (w : Word) : BitVec 4 := wordField w 0 4
/-- `PIN = w[11:4]`. -/
def pinField (w : Word) : BitVec 8 := wordField w 4 8
/-- `MODE`/`KIND = w[14:12]`. -/
def modeField (w : Word) : BitVec 3 := wordField w 12 3
/-- `LVL = w[15]`. -/
def lvlField (w : Word) : BitVec 1 := wordField w 15 1
/-- `SEL = w[19:16]`. -/
def selField (w : Word) : BitVec 4 := wordField w 16 4
/-- `RSV = w[31:20]`. -/
def rsvField (w : Word) : BitVec 12 := wordField w 20 12

/-- KIND codes (R89). -/
def Kind.code : Kind → BitVec 3
  | .dir => 0
  | .dirclr => 1
  | .dirset => 2
  | .out => 3
  | .outclr => 4
  | .outset => 5
  | .input => 6

/-- The kind a KIND code names; 7 is reserved (R89). -/
def Kind.ofCode? (c : BitVec 3) : Option Kind :=
  if c = 0 then some .dir
  else if c = 1 then some .dirclr
  else if c = 2 then some .dirset
  else if c = 3 then some .out
  else if c = 4 then some .outclr
  else if c = 5 then some .outset
  else if c = 6 then some .input
  else none

/-- What a 32-bit word decodes to (R91). -/
inductive Decoded where
  /-- One of the fourteen commands. -/
  | cmd (i : Instr)
  /-- `CFG` with `MODE = 7` and every other field legal: not illegal at decode, it faults INVALID_MODE later (R93). -/
  | invalidMode (pin : Nat)
  /-- An illegal word (R93). -/
  | illegal
  deriving DecidableEq, Repr

/-- `OP = 0x1`: the mode field picks the command (R88); SEL is used only by modes 4 and 5 (R90). -/
def decodeCfg (pin : Nat) (mode : BitVec 3) (sel : BitVec 4) : Decoded :=
  if mode = 4 then .cmd (.cfgPf pin sel)
  else if mode = 5 then .cmd (.cfgPfa pin sel)
  else if sel ≠ 0 then .illegal
  else if mode = 0 then .cmd (.cfgOut pin)
  else if mode = 1 then .cmd (.cfgIn pin)
  else if mode = 2 then .cmd (.cfgPd pin)
  else if mode = 3 then .cmd (.cfgPu pin)
  else if mode = 6 then .cmd (.cfgAn pin)
  else .invalidMode pin

/-- The operation whose `OP` code is `op`, once RSV is known to be 0 (R87, R91). -/
def decodeFields (op : BitVec 4) (pin : Nat) (mode : BitVec 3) (lvl : BitVec 1) (sel : BitVec 4) : Decoded :=
  if op = 1 then
    if lvl ≠ 0 then .illegal else decodeCfg pin mode sel
  else if op = 2 then
    if mode ≠ 0 ∨ sel ≠ 0 then .illegal else .cmd (.setlvl pin (lvl == 1))
  else if op = 6 then
    if lvl ≠ 0 ∨ sel ≠ 0 then .illegal
    else match Kind.ofCode? mode with
      | some k => .cmd (.rslvBit pin k)
      | none => .illegal
  else if mode ≠ 0 ∨ lvl ≠ 0 ∨ sel ≠ 0 then .illegal
  else if op = 3 then .cmd (.getlvl pin)
  else if op = 4 then .cmd (.getcfg pin)
  else if op = 5 then .cmd (.getmux pin)
  else if op = 7 then .cmd (.rslvCfg pin)
  else if op = 8 then .cmd (.rslvMux pin)
  else .illegal

/-- The decoder of R91, total on 32-bit words. -/
def decode (w : Word) : Decoded :=
  if rsvField w ≠ 0 then .illegal
  else decodeFields (opField w) (pinField w).toNat (modeField w) (lvlField w) (selField w)

/-- `OP | (PIN << 4) | (MODE << 12) | (LVL << 15) | (SEL << 16)` (R92). -/
def packWord (op : BitVec 4) (pin : BitVec 8) (mode : BitVec 3) (lvl : BitVec 1) (sel : BitVec 4) : Word :=
  op.setWidth 32 ||| (pin.setWidth 32 <<< 4) ||| (mode.setWidth 32 <<< 12) ||| (lvl.setWidth 32 <<< 15)
    ||| (sel.setWidth 32 <<< 16)

/-- The word of a command, with unused fields 0 (R87, R88, R89, R92). A pin is cut to its 8-bit field; a well-formed
command loses nothing. -/
def encode : Instr → Word
  | .cfgOut p => packWord 1 (BitVec.ofNat 8 p) 0 0 0
  | .cfgIn p => packWord 1 (BitVec.ofNat 8 p) 1 0 0
  | .cfgPd p => packWord 1 (BitVec.ofNat 8 p) 2 0 0
  | .cfgPu p => packWord 1 (BitVec.ofNat 8 p) 3 0 0
  | .cfgPf p s => packWord 1 (BitVec.ofNat 8 p) 4 0 s
  | .cfgPfa p s => packWord 1 (BitVec.ofNat 8 p) 5 0 s
  | .cfgAn p => packWord 1 (BitVec.ofNat 8 p) 6 0 0
  | .setlvl p l => packWord 2 (BitVec.ofNat 8 p) 0 (BitVec.ofBool l) 0
  | .getlvl p => packWord 3 (BitVec.ofNat 8 p) 0 0 0
  | .getcfg p => packWord 4 (BitVec.ofNat 8 p) 0 0 0
  | .getmux p => packWord 5 (BitVec.ofNat 8 p) 0 0 0
  | .rslvBit p k => packWord 6 (BitVec.ofNat 8 p) k.code 0 0
  | .rslvCfg p => packWord 7 (BitVec.ofNat 8 p) 0 0 0
  | .rslvMux p => packWord 8 (BitVec.ofNat 8 p) 0 0 0

/-- The 32-bit command word whose low `nbits` bits are `w`; bits above are 0. Every command has this one length (R85). -/
def tableWord (nbits w : Nat) : Word := BitVec.ofNat 32 (w % 2 ^ nbits)

/-- The command this decoder reads from a word numbered as the opcode table numbers it; none where it refuses. -/
def decodeTableWord (nbits w : Nat) : Option Instr :=
  match decode (tableWord nbits w) with
  | .cmd i => some i
  | .invalidMode _ => none
  | .illegal => none

end Sys2Proof
end

