-- ==== Sys2Proof/Config.lean ====
section
/-! DEFINITION. The named parameters of the implementation (00_scope.md R9), their reference values, and the one
free value: the draws. -/

namespace Sys2Proof

/-- The byte offsets of the register bank's registers from `PORT_BASE`: the `base` column of 10_state.md R31 and the
stride between the banks. `pmux` and `pincfg` are the offsets of index 0; index k lies 4k above. A parameter by R9 and
D6. -/
structure Offsets where
  stride : Word
  dir : Word
  dirclr : Word
  dirset : Word
  out : Word
  outclr : Word
  outset : Word
  input : Word
  pmux : Word
  pincfg : Word
  deriving DecidableEq, Repr

/-- The offsets of 10_state.md R31. -/
def Offsets.reference : Offsets where
  stride := 0x80
  dir := 0x00
  dirclr := 0x04
  dirset := 0x08
  out := 0x10
  outclr := 0x14
  outset := 0x18
  input := 0x20
  pmux := 0x30
  pincfg := 0x40

/-- The parameters of 00_scope.md R9, fixed for one machine. -/
structure Params where
  /-- `PORT_BASE`, OPEN in the spec. -/
  portBase : Word
  /-- `ENGINE_BASE`, OPEN in the spec. -/
  engineBase : Word
  /-- `CFG_IMPL(b,k)`. -/
  cfgImpl : Vector (Vector Bool 8) 2
  /-- `MUX_IMPL(b,k)`. -/
  muxImpl : Vector (Vector Bool 4) 2
  posPmuxen : Fin 8
  posInen : Fin 8
  posPullen : Fin 8
  posDrvstr : Fin 8
  /-- `ANALOG_SEL`. -/
  analogSel : Nibble
  offsets : Offsets
  deriving DecidableEq, Repr

/-- The reference configuration of R9. DESIGN CHOICE (log 1): the two OPEN base addresses are 0 here; no statement
rests on them, since every statement holds for every `Params`. Unsafe only for a claim about the reset parameters. -/
def Params.reference : Params where
  portBase := 0x00000000
  engineBase := 0x00000000
  cfgImpl := #v[Vector.replicate 8 true, Vector.replicate 8 true]
  muxImpl := #v[Vector.replicate 4 true, Vector.replicate 4 true]
  posPmuxen := 0
  posInen := 1
  posPullen := 2
  posDrvstr := 6
  analogSel := 1
  offsets := Offsets.reference

/-- `CFG_NAMED_MASK`: the four named bits of a configuration byte (R10). -/
def Params.namedMask (P : Params) : Byte :=
  (1#8 <<< P.posPmuxen.val) ||| (1#8 <<< P.posInen.val) ||| (1#8 <<< P.posPullen.val) ||| (1#8 <<< P.posDrvstr.val)

/-- `CFG_NAMED_MASK` in all four bytes of a configuration register: the bits that hold state (R37). -/
def Params.namedWord (P : Params) : Word :=
  P.namedMask ++ P.namedMask ++ P.namedMask ++ P.namedMask

/-- The draws (R13, R36, R37, R43): the n-th value the spec leaves open. It has no body, so nothing can be proved of
its values. Safe (log 2). -/
opaque Config.freeWord : Nat → Word

end Sys2Proof
end

