-- ==== Sys2Proof/Machine/State.lean ====
section
/-! DEFINITION. The machine's state as plain data: the engine's registers (10_state.md R20), the register bank (R31), the
parameters (00_scope.md R9), and what the outside agents do next (20_memory.md R75, R76). -/

namespace Sys2Proof.Machine

/-- `ST`, the sequencer state (R21). -/
inductive SeqState where
  | idle | busy | fault
  deriving DecidableEq, Repr

/-- The fault codes a command can raise (60_exceptions.md R180). -/
inductive FaultCode where
  | pinRange | pinUnimpl | invalidMode | illegalCmd
  deriving DecidableEq, Repr

/-- The locations of the register bank (R31); b is the bank, k the index of a packed register. -/
inductive BankLoc where
  | dir (b : Fin 2) | dirclr (b : Fin 2) | dirset (b : Fin 2)
  | out (b : Fin 2) | outclr (b : Fin 2) | outset (b : Fin 2)
  | input (b : Fin 2)
  | pmux (b : Fin 2) (k : Fin 4)
  | pincfg (b : Fin 2) (k : Fin 8)
  deriving DecidableEq, Repr

/-- `r0` of a `FINISH`, a function of `LAT` fixed at acceptance (20_memory.md R70): a constant, or a field of `LAT`
zero-extended. -/
inductive Resp0 where
  | const (w : Word)
  | latField (pos n : Nat)
  deriving DecidableEq, Repr

/-- The micro-operations (20_memory.md R70). Offsets are from `PORT_BASE`. -/
inductive MicroOp where
  | wr (off v : Word)
  | rd (off : Word)
  | wrm (off : Word) (pos n : Nat) (val : Word)
  | finish (r0 : Resp0) (r1 : Word)
  deriving DecidableEq, Repr

/-- The stored registers of the bank (R32, R34, R37, R38). The set, clear and input ports have no storage. -/
structure Bank where
  dir : Vector Word 2
  out : Vector Word 2
  pincfg : Vector (Vector Word 8) 2
  pmux : Vector (Vector Word 4) 2
  deriving DecidableEq, Repr

/-- Who makes an access besides the engine (20_memory.md R75): a host context, of which there may be any number (60 R196),
or the environment. -/
inductive Agent where
  | host (ctx : Nat)
  | environment
  deriving DecidableEq, Repr

/-- A `CMD` write the host port stalls, and the host context that made it (R30, 60 R196). -/
structure HeldWrite where
  ctx : Nat
  word : Word
  deriving DecidableEq, Repr

/-- One turn of an agent (20_memory.md R75): the engine's own, an access by the host or the environment, or a reset.
Accesses give a byte address and a width in bytes. -/
inductive Turn where
  /-- The engine takes its turn. -/
  | engine
  /-- A host-port read by a host context (R30). -/
  | hostRead (ctx : Nat) (addr : Word) (width : Nat)
  /-- A host-port write by a host context (R30). -/
  | hostWrite (ctx : Nat) (addr : Word) (width : Nat) (v : Word)
  /-- A bank read by a host context or the environment (R39). -/
  | busRead (who : Agent) (addr : Word) (width : Nat)
  /-- A bank write by a host context or the environment (R39). -/
  | busWrite (who : Agent) (addr : Word) (width : Nat) (v : Word)
  /-- Engine reset (70 R210); `dropHeld`: the host gives up the CMD writes it has stalled (log 6). -/
  | engineReset (dropHeld : Bool)
  /-- Platform reset or power-down and restore: engine and bank (60 R198, 70 R212). -/
  | platformReset (dropHeld : Bool)
  deriving DecidableEq, Repr

/-- The whole machine. -/
structure State where
  /-- The parameters (R9); no step changes them. -/
  params : Params
  /-- `ST` (R21). -/
  st : SeqState
  /-- `CMD` (R22). -/
  cmd : Word
  /-- `ERRCODE` (R180). -/
  errcode : BitVec 4
  /-- `RSP0` (R24). -/
  rsp0 : Word
  /-- `RSP1` (R25). -/
  rsp1 : Word
  /-- `LAT` (R26). -/
  lat : Word
  /-- `SEQ` (R27). -/
  seq : List MicroOp
  /-- The register bank (R31). -/
  bank : Bank
  /-- `CMD` writes the host port stalls while BUSY, first come first (R30, log 5). -/
  held : List HeldWrite
  /-- What the outside agents do next, and when the engine takes its turns between (R76, log 4). -/
  agenda : List Turn
  /-- The word the last host-port read returned (R30, log 7). -/
  hostData : Option Word
  /-- The word the last bank read of another agent returned (R39, log 7). -/
  busData : Option Word
  /-- Draws the outside has supplied already, the next one first (R36, log 2). -/
  draws : List Word
  /-- How many draws have been taken: the argument of the free value (log 2). -/
  drawn : Nat
  deriving DecidableEq, Repr

/-- Why a step stops the model. No command raises one. -/
inductive Fault where
  /-- Raised by an engine step in `BUSY` with an empty `SEQ`: a state R21 excludes and no run reaches. Safe: stuck. -/
  | busyWithoutMicroOp
  deriving DecidableEq, Repr

/-- What the model has no meaning for. -/
inductive Refusal where
  /-- Raised by an arm of `exec` without a meaning. There is none. Safe. -/
  | notModelled (mnemonic : String)
  /-- Raised by a host-port access of another width or at another offset (R29, R62, R63). Safe. -/
  | hostAccess
  /-- Raised by a bank access that is not 32 bits wide (R62; 93 section 1). Safe. -/
  | bankWidth
  /-- Raised by a bank access at an offset R31 does not list (R41). Safe. -/
  | unlistedOffset
  /-- Raised by an access to a packed register the package lacks (R40). Safe. -/
  | unimplementedRegister
  /-- Raised by a read of a set or clear port (R33). Safe. -/
  | writePortRead
  deriving DecidableEq, Repr

/-- The contents of a bank nobody has written: every stored bit is a draw (R43), taken from number `n` on. The bits of
`named` are those of a configuration register that hold state (R37). -/
def Bank.drawnFrom (named : Word) (n : Nat) : Bank where
  dir := Vector.ofFn fun b => Config.freeWord (n + b.val)
  out := Vector.ofFn fun b => Config.freeWord (n + 2 + b.val)
  pincfg := Vector.ofFn fun b => Vector.ofFn fun k => Config.freeWord (n + 4 + 8 * b.val + k.val) &&& named
  pmux := Vector.ofFn fun b => Vector.ofFn fun k => Config.freeWord (n + 20 + 4 * b.val + k.val)

/-- How many draws the contents of a bank take. -/
def Bank.drawCount : Nat := 28

/-- The machine right after reset (R42, R43), in the reference configuration (R9), with no outside agent moving. -/
def State.reset : State where
  params := Params.reference
  st := .idle
  cmd := 0x00000000
  errcode := 0
  rsp0 := 0x00000000
  rsp1 := 0x00000000
  lat := 0x00000000
  seq := []
  bank := Bank.drawnFrom Params.reference.namedWord 0
  held := []
  agenda := []
  hostData := none
  busData := none
  draws := []
  drawn := Bank.drawCount

end Sys2Proof.Machine
end

