-- ==== Sys2Proof/Machine/Ops.lean ====
section
/-! DEFINITION. The operations every command and agent shares: bit fields (00_scope.md R12), draws (R13), the register
bank by location and by address (10_state.md R31 to R41), the micro-operations (20_memory.md R70), accepting a command and
entering FAULT (60_exceptions.md R181, R182), and reset (70_reset_and_hazards.md R210, R212). -/

namespace Sys2Proof.Machine

/-- `(1<<n)-1` (R12). -/
def fieldMask (n : Nat) : Word := (1#32 <<< n) - 1#32

/-- `ext(w, pos, n) = w[pos+n-1:pos]` (R12). -/
def extField (w : Word) (pos n : Nat) : BitVec n := w.extractLsb' pos n

/-- `ins(w, pos, n, v)` (R12). -/
def insField (w : Word) (pos n : Nat) (v : Word) : Word :=
  (w &&& ~~~(fieldMask n <<< pos)) ||| ((v.setWidth n).setWidth 32 <<< pos)

/-- Byte n of a word, the byte another agent's little-endian view places at address A + n (R64). -/
def wordByte (w : Word) (n : Nat) : Byte := extField w (8 * n) 8

/-- The word whose bit j is `f j`. -/
def wordOfBits (f : Fin 32 → Bool) : Word := BitVec.ofFnLE f

/-- The next draw: what the outside has supplied, else a free value (log 2). -/
def State.drawWord (s : State) : Word := s.draws.headD (Config.freeWord s.drawn)

/-- The state after a draw is taken; the next draw is another one (R36: each read draws afresh). -/
def State.afterDraw (s : State) : State := { s with draws := s.draws.tail, drawn := s.drawn + 1 }

/-- `s` with another bank. -/
def State.withBank (s : State) (B : Bank) : State := { s with bank := B }

/-- The byte offset `off(b, name)` of a location from `PORT_BASE` (R31). -/
def regOffset (P : Params) : BankLoc → Word
  | .dir b => P.offsets.stride * BitVec.ofNat 32 b.val + P.offsets.dir
  | .dirclr b => P.offsets.stride * BitVec.ofNat 32 b.val + P.offsets.dirclr
  | .dirset b => P.offsets.stride * BitVec.ofNat 32 b.val + P.offsets.dirset
  | .out b => P.offsets.stride * BitVec.ofNat 32 b.val + P.offsets.out
  | .outclr b => P.offsets.stride * BitVec.ofNat 32 b.val + P.offsets.outclr
  | .outset b => P.offsets.stride * BitVec.ofNat 32 b.val + P.offsets.outset
  | .input b => P.offsets.stride * BitVec.ofNat 32 b.val + P.offsets.input
  | .pmux b k => P.offsets.stride * BitVec.ofNat 32 b.val + P.offsets.pmux + 4 * BitVec.ofNat 32 k.val
  | .pincfg b k => P.offsets.stride * BitVec.ofNat 32 b.val + P.offsets.pincfg + 4 * BitVec.ofNat 32 k.val

/-- The locations of one bank (R31). -/
def bankLocs (b : Fin 2) : List BankLoc :=
  [.dir b, .dirclr b, .dirset b, .out b, .outclr b, .outset b, .input b,
   .pmux b 0, .pmux b 1, .pmux b 2, .pmux b 3,
   .pincfg b 0, .pincfg b 1, .pincfg b 2, .pincfg b 3, .pincfg b 4, .pincfg b 5, .pincfg b 6, .pincfg b 7]

/-- All locations of the surface (R31). -/
def allLocs : List BankLoc := bankLocs 0 ++ bankLocs 1

/-- The location at an offset from `PORT_BASE`; none outside the surface (R41). -/
def locAt? (P : Params) (off : Word) : Option BankLoc := allLocs.find? fun l => regOffset P l == off

/-- The register-bus address of an offset: `PORT_BASE + off` (R61). -/
def busAddr (P : Params) (off : Word) : Word := P.portBase + off

/-- Whether a location exists on the package: the packed registers are parameters, the others exist for both banks
(R40, R106). -/
def implemented (P : Params) : BankLoc → Bool
  | .pmux b k => P.muxImpl[b][k]
  | .pincfg b k => P.cfgImpl[b][k]
  | .dir _ | .dirclr _ | .dirset _ | .out _ | .outclr _ | .outset _ | .input _ => true

def Bank.setDir (B : Bank) (b : Fin 2) (v : Word) : Bank := { B with dir := B.dir.set b v }
def Bank.setOut (B : Bank) (b : Fin 2) (v : Word) : Bank := { B with out := B.out.set b v }

/-- `PINCFG[b][k]` takes the named bits of `v`; a write to the reserved bits is ignored (R37). -/
def Bank.setPincfg (P : Params) (B : Bank) (b : Fin 2) (k : Fin 8) (v : Word) : Bank :=
  { B with pincfg := B.pincfg.set b (B.pincfg[b].set k (v &&& P.namedWord)) }

/-- `PMUX[b][k]` stores all 32 bits (R38). -/
def Bank.setPmux (B : Bank) (b : Fin 2) (k : Fin 4) (v : Word) : Bank :=
  { B with pmux := B.pmux.set b (B.pmux[b].set k v) }

/-- What a read of `PINCFG[b][k]` returns: the named bits as stored, a draw for each reserved bit (R37). -/
def pincfgWord (P : Params) (B : Bank) (b : Fin 2) (k : Fin 8) (draw : Word) : Word :=
  (B.pincfg[b][k] &&& P.namedWord) ||| (draw &&& ~~~P.namedWord)

/-- Whether bit j of `IN[b]` is the read-back of the driven level: the condition of R36. -/
def readsBack (P : Params) (B : Bank) (b : Fin 2) (j : Fin 32) : Bool :=
  let k : Fin 8 := ⟨j.val / 4, by omega⟩
  let c : Byte := extField B.pincfg[b][k] (8 * (j.val % 4)) 8
  B.dir[b].getLsbD j.val && P.cfgImpl[b][k] && c.getLsbD P.posInen.val && !c.getLsbD P.posPmuxen.val

/-- What a read of `IN[b]` returns: the driven level where it reads back, else a draw (R36). -/
def inputWord (P : Params) (B : Bank) (b : Fin 2) (draw : Word) : Word :=
  wordOfBits fun j => if readsBack P B b j then B.out[b].getLsbD j.val else draw.getLsbD j.val

/-- A 32-bit read of a location: the word and the state after it (R32 to R38; refusals R33, R40). -/
def bankRead (l : BankLoc) (s : State) : Host.Outcome (Word × State) Fault Refusal :=
  match l with
  | .dir b => .next (s.bank.dir[b], s)
  | .out b => .next (s.bank.out[b], s)
  | .dirclr _ | .dirset _ | .outclr _ | .outset _ => .refused .writePortRead
  | .input b => .next (inputWord s.params s.bank b s.drawWord, s.afterDraw)
  | .pmux b k => if s.params.muxImpl[b][k] then .next (s.bank.pmux[b][k], s) else .refused .unimplementedRegister
  | .pincfg b k =>
    if s.params.cfgImpl[b][k] then .next (pincfgWord s.params s.bank b k s.drawWord, s.afterDraw)
    else .refused .unimplementedRegister

/-- A 32-bit write of a location, one indivisible update (R32 to R38, R65, R66; refusal R40). -/
def bankWrite (l : BankLoc) (v : Word) (s : State) : Host.Outcome State Fault Refusal :=
  match l with
  | .dir b => .next (s.withBank (s.bank.setDir b v))
  | .dirclr b => .next (s.withBank (s.bank.setDir b (s.bank.dir[b] &&& ~~~v)))
  | .dirset b => .next (s.withBank (s.bank.setDir b (s.bank.dir[b] ||| v)))
  | .out b => .next (s.withBank (s.bank.setOut b v))
  | .outclr b => .next (s.withBank (s.bank.setOut b (s.bank.out[b] &&& ~~~v)))
  | .outset b => .next (s.withBank (s.bank.setOut b (s.bank.out[b] ||| v)))
  | .input _ => .next s
  | .pmux b k =>
    if s.params.muxImpl[b][k] then .next (s.withBank (s.bank.setPmux b k v)) else .refused .unimplementedRegister
  | .pincfg b k =>
    if s.params.cfgImpl[b][k] then .next (s.withBank (Bank.setPincfg s.params s.bank b k v))
    else .refused .unimplementedRegister

/-- `MemRead(addr, 4)` (R13). -/
def memRead (addr : Word) (s : State) : Host.Outcome (Word × State) Fault Refusal :=
  match locAt? s.params (addr - s.params.portBase) with
  | some l => bankRead l s
  | none => .refused .unlistedOffset

/-- `MemWrite(addr, 4, v)` (R13). -/
def memWrite (addr v : Word) (s : State) : Host.Outcome State Fault Refusal :=
  match locAt? s.params (addr - s.params.portBase) with
  | some l => bankWrite l v s
  | none => .refused .unlistedOffset

/-- `r0(LAT)` of a `FINISH` (R70). -/
def Resp0.eval (lat : Word) : Resp0 → Word
  | .const w => w
  | .latField pos n => (extField lat pos n).setWidth 32

/-- `FINISH`: the responses are written and the engine is idle (R24, R70). -/
def State.finish (r0 r1 : Word) (s : State) : State := { s with rsp0 := r0, rsp1 := r1, st := .idle }

/-- `LAT` takes a word (R26). -/
def State.withLat (s : State) (w : Word) : State := { s with lat := w }

/-- The rest of `SEQ` once its head is removed (R27). -/
def State.withSeq (s : State) (ops : List MicroOp) : State := { s with seq := ops }

/-- One micro-operation (R70), on the state whose `SEQ` no longer holds it. -/
def perform (op : MicroOp) (s : State) : Host.Outcome State Fault Refusal :=
  match op with
  | .wr off v => memWrite (busAddr s.params off) v s
  | .rd off =>
    match memRead (busAddr s.params off) s with
    | .next (w, s') => .next (s'.withLat w)
    | .fault f => .fault f
    | .refused r => .refused r
  | .wrm off pos n val => memWrite (busAddr s.params off) (insField s.lat pos n val) s
  | .finish r0 r1 => .next (s.finish (r0.eval s.lat) r1)

/-- One engine step in `BUSY`: the head of `SEQ` is removed and performed (R70). -/
def microStep (s : State) : Host.Outcome State Fault Refusal :=
  match s.seq with
  | op :: rest => perform op (s.withSeq rest)
  | [] => .fault .busyWithoutMicroOp

/-- The code of a fault (R180). -/
def FaultCode.code : FaultCode → BitVec 4
  | .pinRange => 1
  | .pinUnimpl => 2
  | .invalidMode => 3
  | .illegalCmd => 4

/-- Fault entry, the one operation that takes a hardware fault (R182): nothing but `ST` and `ERRCODE` changes. -/
def State.enterFault (c : FaultCode) (s : State) : State := { s with st := .fault, errcode := c.code }

/-- Acceptance: `SEQ <- seq(d); ST <- BUSY` (R181). -/
def State.accept (ops : List MicroOp) (s : State) : State := { s with seq := ops, st := .busy }

/-- The end of issue (R181): fault entry if a check failed, else acceptance. -/
def conclude (verdict : Option FaultCode) (ops : List MicroOp) (s : State) : Host.Outcome State Fault Refusal :=
  match verdict with
  | some c => .next (s.enterFault c)
  | none => .next (s.accept ops)

/-- Engine reset (R42, R210, R211): the engine's registers, not the bank. The held writes are the host's (log 6). -/
def State.engineReset (dropHeld : Bool) (s : State) : State :=
  { s with
    st := .idle
    cmd := 0
    errcode := 0
    rsp0 := 0
    rsp1 := 0
    lat := 0
    seq := []
    held := if dropHeld then [] else s.held }

/-- Platform reset, or power-down and restore (R43, R198, R212): engine reset, and the bank's contents are draws. -/
def State.platformReset (dropHeld : Bool) (s : State) : State :=
  let r := s.engineReset dropHeld
  { r with
    bank := Bank.drawnFrom s.params.namedWord s.drawn
    drawn := s.drawn + Bank.drawCount }

end Sys2Proof.Machine
end

