-- ==== Sys2Proof/Machine/Operands.lean ====
section
/-! DEFINITION. The register resolver and the packer and unpacker of packed fields (40_resolver.md R100 to R108), the
values a configure writes (00_scope.md R10), and the checks of a command (60_exceptions.md R183, R184, R186). Throughout p is
a pin index; the resolver is used on in-range pins only (R100). -/

namespace Sys2Proof.Machine

/-- R100. -/
abbrev InRange (p : Nat) : Prop := p ≤ 63

/-- `bank(p) = p / 32` (R101); `cfgBank` and `muxBank` are the same bank (R102, R103). -/
def bankOf (p : Nat) : Fin 2 := Fin.ofNat 2 (p / 32)

/-- `bit(p) = p mod 32` (R101). -/
def bitOf (p : Nat) : Fin 32 := Fin.ofNat 32 p

/-- `mask(p) = 1 << bit(p)` (R101). -/
def maskOf (p : Nat) : Word := 1#32 <<< (p % 32)

/-- `cfgIndex(p) = (p / 4) mod 8` (R102). -/
def cfgIndex (p : Nat) : Fin 8 := Fin.ofNat 8 (p / 4)

/-- `cfgShift(p) = (p mod 4) * 8` (R102). -/
def cfgShift (p : Nat) : Nat := p % 4 * 8

/-- `muxIndex(p) = ((p / 2) / 4) mod 4` (R103, 90_conflicts.md C2: the packed-byte rule on the byte index `p / 2`). -/
def muxIndex (p : Nat) : Fin 4 := Fin.ofNat 4 (p / 2 / 4)

/-- `muxByteShift(p) = ((p / 2) mod 4) * 8` (R103). -/
def muxByteShift (p : Nat) : Nat := p / 2 % 4 * 8

/-- `muxNibShift(p) = (p mod 2) * 4` (R103): even pin low nibble, odd pin high. -/
def muxNibShift (p : Nat) : Nat := p % 2 * 4

/-- `muxShift(p) = muxByteShift(p) + muxNibShift(p)` (R103). -/
def muxShift (p : Nat) : Nat := muxByteShift p + muxNibShift p

/-- The configuration register of pin p (R102). -/
def cfgLoc (p : Nat) : BankLoc := .pincfg (bankOf p) (cfgIndex p)

/-- The multiplexer register of pin p (R103). -/
def muxLoc (p : Nat) : BankLoc := .pmux (bankOf p) (muxIndex p)

/-- The kind's register of bank b (R89, R101). -/
def kindLoc (b : Fin 2) : Kind → BankLoc
  | .dir => .dir b
  | .dirclr => .dirclr b
  | .dirset => .dirset b
  | .out => .out b
  | .outclr => .outclr b
  | .outset => .outset b
  | .input => .input b

/-- `bitRegOff(p, kind)` (R105). -/
def bitRegOff (P : Params) (p : Nat) (kind : Kind) : Word := regOffset P (kindLoc (bankOf p) kind)

/-- `cfgRegOff(p)` (R105). -/
def cfgRegOff (P : Params) (p : Nat) : Word := regOffset P (cfgLoc p)

/-- `muxRegOff(p)` (R105). -/
def muxRegOff (P : Params) (p : Nat) : Word := regOffset P (muxLoc p)

/-- `cfgOf(p, w)` (R107). -/
def cfgOf (p : Nat) (w : Word) : Byte := extField w (cfgShift p) 8

/-- `muxOf(p, w)` (R107). -/
def muxOf (p : Nat) (w : Word) : Nibble := extField w (muxShift p) 4

/-- Pin p's direction bit in a bank (R32, R107). -/
def pinDir (B : Bank) (p : Nat) : Bool := B.dir[bankOf p].getLsbD (p % 32)

/-- Pin p's output bit in a bank (R34, R107). -/
def pinOut (B : Bank) (p : Nat) : Bool := B.out[bankOf p].getLsbD (p % 32)

/-- Pin p's configuration byte as stored: its named bits are those of R37. -/
def pinCfg (B : Bank) (p : Nat) : Byte := cfgOf p B.pincfg[bankOf p][cfgIndex p]

/-- Pin p's multiplexer nibble (R38). -/
def pinMux (B : Bank) (p : Nat) : Nibble := muxOf p B.pmux[bankOf p][muxIndex p]

/-- `CFG_IN` (R10). -/
def cfgIn (P : Params) : Byte := 1#8 <<< P.posInen.val

/-- `CFG_PULL` (R10). -/
def cfgPull (P : Params) : Byte := (1#8 <<< P.posInen.val) ||| (1#8 <<< P.posPullen.val)

/-- `CFG_PF` (R10). -/
def cfgPf (P : Params) : Byte :=
  (1#8 <<< P.posPmuxen.val) ||| (1#8 <<< P.posDrvstr.val) ||| (1#8 <<< P.posInen.val)

/-- `CFG_PFA` (R10). -/
def cfgPfa (P : Params) : Byte := (1#8 <<< P.posPmuxen.val) ||| (1#8 <<< P.posDrvstr.val)

/-- `CFGW(p, v)` (42_configure.md R140): rewrite pin p's whole configuration byte (R143). -/
def cfgw (P : Params) (p : Nat) (v : Byte) : List MicroOp :=
  [.rd (cfgRegOff P p), .wrm (cfgRegOff P p) (cfgShift p) 8 (v.setWidth 32)]

/-- `MUXW(p, s)` (42_configure.md R140): rewrite pin p's multiplexer nibble. -/
def muxw (P : Params) (p : Nat) (s : Nibble) : List MicroOp :=
  [.rd (muxRegOff P p), .wrm (muxRegOff P p) (muxShift p) 4 (s.setWidth 32)]

/-- PIN_RANGE: the pin is above 63 (R183). -/
def checkRange (p : Nat) : Option FaultCode := if 63 < p then some .pinRange else none

/-- PIN_UNIMPL: the pin's packed register does not exist on the package (R184). -/
def checkImpl (P : Params) (l : BankLoc) : Option FaultCode := if implemented P l then none else some .pinUnimpl

/-- The first check that fails is reported (R186). -/
def firstFault : List (Option FaultCode) → Option FaultCode
  | [] => none
  | some c :: _ => some c
  | none :: rest => firstFault rest

/-- The checks of `setlvl`, `getlvl` and `rslv.bit`: the range only (R106, R184). -/
def checkBit (p : Nat) : Option FaultCode := firstFault [checkRange p]

/-- The checks of `cfg.out`, `cfg.in`, `cfg.pd`, `cfg.pu` (R142 steps 2 and 4), `getcfg` and `rslv.cfg`. -/
def checkCfg (P : Params) (p : Nat) : Option FaultCode := firstFault [checkRange p, checkImpl P (cfgLoc p)]

/-- The checks of `getmux` and `rslv.mux`. -/
def checkMux (P : Params) (p : Nat) : Option FaultCode := firstFault [checkRange p, checkImpl P (muxLoc p)]

/-- The checks of `cfg.pf`, `cfg.pfa` and `cfg.an` (R142 steps 2, 4 and 5). -/
def checkCfgMux (P : Params) (p : Nat) : Option FaultCode :=
  firstFault [checkRange p, checkImpl P (cfgLoc p), checkImpl P (muxLoc p)]

/-- The checks of a `CFG` word with `MODE = 7` (R186, R187): the range first, then INVALID_MODE always. -/
def checkInvalidMode (p : Nat) : Option FaultCode := firstFault [checkRange p, some .invalidMode]

end Sys2Proof.Machine
end

