-- ==== Sys2Proof/Machine/Configure.lean ====
section
/-! DEFINITION. The seven configure commands (42_configure.md R140 to R156): each one's fixed list of micro-operations and
its meaning, which is the end of its issue (60_exceptions.md R181) on the state whose `CMD` already holds the word. -/

namespace Sys2Proof.Machine

/-- R145: every configure ends with `FINISH(0, 0)`. -/
def finishZero : MicroOp := .finish (.const 0) 0

/-- The bus sequence of `cfg.out` (R150). -/
def seqCfgOut (P : Params) (p : Nat) : List MicroOp :=
  [.wr (regOffset P (.dirset (bankOf p))) (maskOf p)] ++ cfgw P p (cfgIn P) ++ [finishZero]

/-- The bus sequence of `cfg.in` (R151). -/
def seqCfgIn (P : Params) (p : Nat) : List MicroOp :=
  [.wr (regOffset P (.dirclr (bankOf p))) (maskOf p)] ++ cfgw P p (cfgIn P) ++ [finishZero]

/-- The bus sequence of `cfg.pd` (R152). -/
def seqCfgPd (P : Params) (p : Nat) : List MicroOp :=
  [.wr (regOffset P (.dirclr (bankOf p))) (maskOf p), .wr (regOffset P (.outclr (bankOf p))) (maskOf p)]
    ++ cfgw P p (cfgPull P) ++ [finishZero]

/-- The bus sequence of `cfg.pu` (R153). -/
def seqCfgPu (P : Params) (p : Nat) : List MicroOp :=
  [.wr (regOffset P (.dirclr (bankOf p))) (maskOf p), .wr (regOffset P (.outset (bankOf p))) (maskOf p)]
    ++ cfgw P p (cfgPull P) ++ [finishZero]

/-- The bus sequence of `cfg.pf` (R154). -/
def seqCfgPf (P : Params) (p : Nat) (sel : Nibble) : List MicroOp :=
  muxw P p sel ++ cfgw P p (cfgPf P) ++ [finishZero]

/-- The bus sequence of `cfg.pfa` (R155). -/
def seqCfgPfa (P : Params) (p : Nat) (sel : Nibble) : List MicroOp :=
  muxw P p sel ++ cfgw P p (cfgPfa P) ++ [finishZero]

/-- The bus sequence of `cfg.an` (R156). -/
def seqCfgAn (P : Params) (p : Nat) : List MicroOp :=
  muxw P p P.analogSel ++ cfgw P p (cfgPfa P) ++ [finishZero]

/-- `cfg.out p` (R150). -/
def execCfgOut (p : Nat) (s : State) : Host.Outcome State Fault Refusal :=
  conclude (checkCfg s.params p) (seqCfgOut s.params p) s

/-- `cfg.in p` (R151). -/
def execCfgIn (p : Nat) (s : State) : Host.Outcome State Fault Refusal :=
  conclude (checkCfg s.params p) (seqCfgIn s.params p) s

/-- `cfg.pd p` (R152). -/
def execCfgPd (p : Nat) (s : State) : Host.Outcome State Fault Refusal :=
  conclude (checkCfg s.params p) (seqCfgPd s.params p) s

/-- `cfg.pu p` (R153). -/
def execCfgPu (p : Nat) (s : State) : Host.Outcome State Fault Refusal :=
  conclude (checkCfg s.params p) (seqCfgPu s.params p) s

/-- `cfg.pf p, sel` (R154). -/
def execCfgPf (p : Nat) (sel : Nibble) (s : State) : Host.Outcome State Fault Refusal :=
  conclude (checkCfgMux s.params p) (seqCfgPf s.params p sel) s

/-- `cfg.pfa p, sel` (R155). -/
def execCfgPfa (p : Nat) (sel : Nibble) (s : State) : Host.Outcome State Fault Refusal :=
  conclude (checkCfgMux s.params p) (seqCfgPfa s.params p sel) s

/-- `cfg.an p` (R156). -/
def execCfgAn (p : Nat) (s : State) : Host.Outcome State Fault Refusal :=
  conclude (checkCfgMux s.params p) (seqCfgAn s.params p) s

end Sys2Proof.Machine
end

