-- ==== Sys2Proof/Machine/FieldRead.lean ====
section
/-! DEFINITION. Packed-field reads (43_field_read.md R170, R171). -/

namespace Sys2Proof.Machine

/-- The bus sequence of `getcfg` (R170). -/
def seqGetcfg (P : Params) (p : Nat) : List MicroOp :=
  [.rd (cfgRegOff P p), .finish (.latField (cfgShift p) 8) 0]

/-- The bus sequence of `getmux` (R171). -/
def seqGetmux (P : Params) (p : Nat) : List MicroOp :=
  [.rd (muxRegOff P p), .finish (.latField (muxShift p) 4) 0]

/-- `getcfg p` (R170). -/
def execGetcfg (p : Nat) (s : State) : Host.Outcome State Fault Refusal :=
  conclude (checkCfg s.params p) (seqGetcfg s.params p) s

/-- `getmux p` (R171). -/
def execGetmux (p : Nat) (s : State) : Host.Outcome State Fault Refusal :=
  conclude (checkMux s.params p) (seqGetmux s.params p) s

end Sys2Proof.Machine
end

