-- ==== Sys2Proof/Machine/Level.lean ====
section
/-! DEFINITION. Level set and get (41_level.md R130, R131). -/

namespace Sys2Proof.Machine

/-- The bus sequence of `setlvl` (R130): one write to `OUTSET` or `OUTCLR`. -/
def seqSetlvl (P : Params) (p : Nat) (l : Bool) : List MicroOp :=
  [.wr (regOffset P (if l then .outset (bankOf p) else .outclr (bankOf p))) (maskOf p), .finish (.const 0) 0]

/-- The bus sequence of `getlvl` (R131): one read of `IN`, and bit i of it. -/
def seqGetlvl (P : Params) (p : Nat) : List MicroOp :=
  [.rd (regOffset P (.input (bankOf p))), .finish (.latField (p % 32) 1) 0]

/-- `setlvl p, l` (R130). -/
def execSetlvl (p : Nat) (l : Bool) (s : State) : Host.Outcome State Fault Refusal :=
  conclude (checkBit p) (seqSetlvl s.params p l) s

/-- `getlvl p` (R131). -/
def execGetlvl (p : Nat) (s : State) : Host.Outcome State Fault Refusal :=
  conclude (checkBit p) (seqGetlvl s.params p) s

end Sys2Proof.Machine
end

