-- ==== Sys2Proof/Machine/Resolver.lean ====
section
/-! DEFINITION. The resolve commands (40_resolver.md R110 to R112): no bus access, one `FINISH`. -/

namespace Sys2Proof.Machine

/-- The sequence of `rslv.bit` (R110): mask and register offset. -/
def seqRslvBit (P : Params) (p : Nat) (kind : Kind) : List MicroOp :=
  [.finish (.const (maskOf p)) (bitRegOff P p kind)]

/-- The sequence of `rslv.cfg` (R111): byte offset and register offset. -/
def seqRslvCfg (P : Params) (p : Nat) : List MicroOp :=
  [.finish (.const (BitVec.ofNat 32 (cfgShift p))) (cfgRegOff P p)]

/-- The sequence of `rslv.mux` (R112): byte offset, nibble offset in bits 15:8, and register offset. -/
def seqRslvMux (P : Params) (p : Nat) : List MicroOp :=
  [.finish (.const (BitVec.ofNat 32 (muxByteShift p) ||| (BitVec.ofNat 32 (muxNibShift p) <<< 8))) (muxRegOff P p)]

/-- `rslv.bit p, kind` (R110). -/
def execRslvBit (p : Nat) (kind : Kind) (s : State) : Host.Outcome State Fault Refusal :=
  conclude (checkBit p) (seqRslvBit s.params p kind) s

/-- `rslv.cfg p` (R111). -/
def execRslvCfg (p : Nat) (s : State) : Host.Outcome State Fault Refusal :=
  conclude (checkCfg s.params p) (seqRslvCfg s.params p) s

/-- `rslv.mux p` (R112). -/
def execRslvMux (p : Nat) (s : State) : Host.Outcome State Fault Refusal :=
  conclude (checkMux s.params p) (seqRslvMux s.params p) s

end Sys2Proof.Machine
end

