-- ==== Sys2Proof/Machine/Dispatch.lean ====
section
/-! DEFINITION. One arm per command. `exec i s` is the end of issuing command i (60_exceptions.md R181): s is the state in
IDLE whose `CMD` already holds the word of i, and the answer is BUSY with the command's `SEQ`, or FAULT. -/

namespace Sys2Proof.Machine

def exec (i : Instr) (s : State) : Host.Outcome State Fault Refusal :=
  match i with
  | .cfgOut pin => Sys2Proof.Machine.execCfgOut pin s
  | .cfgIn pin => Sys2Proof.Machine.execCfgIn pin s
  | .cfgPd pin => Sys2Proof.Machine.execCfgPd pin s
  | .cfgPu pin => Sys2Proof.Machine.execCfgPu pin s
  | .cfgPf pin sel => Sys2Proof.Machine.execCfgPf pin sel s
  | .cfgPfa pin sel => Sys2Proof.Machine.execCfgPfa pin sel s
  | .cfgAn pin => Sys2Proof.Machine.execCfgAn pin s
  | .setlvl pin lvl => Sys2Proof.Machine.execSetlvl pin lvl s
  | .getlvl pin => Sys2Proof.Machine.execGetlvl pin s
  | .getcfg pin => Sys2Proof.Machine.execGetcfg pin s
  | .getmux pin => Sys2Proof.Machine.execGetmux pin s
  | .rslvBit pin kind => Sys2Proof.Machine.execRslvBit pin kind s
  | .rslvCfg pin => Sys2Proof.Machine.execRslvCfg pin s
  | .rslvMux pin => Sys2Proof.Machine.execRslvMux pin s

end Sys2Proof.Machine
end

