-- ==== Sys2Proof/Machine/Flags.lean ====
section
/-! DEFINITION. The flags: `STATUS`, a view computed from the engine's state (10_state.md R23, R28). -/

namespace Sys2Proof.Machine

/-- `STATUS.BUSY`: 1 iff `ST = BUSY`. -/
def busyFlag (s : State) : BitVec 1 := BitVec.ofBool (s.st == .busy)

/-- `STATUS.ERR`: 1 iff `ST = FAULT`. -/
def errFlag (s : State) : BitVec 1 := BitVec.ofBool (s.st == .fault)

/-- `STATUS.ERRCODE`: the `ERRCODE` register; 0 when `ST` is not FAULT. -/
def errcodeFlag (s : State) : BitVec 4 := if s.st = .fault then s.errcode else 0

/-- `STATUS` (R23): BUSY at bit 0, ERR at bit 1, ERRCODE at bits 7:4, the rest 0. -/
def statusWord (s : State) : Word :=
  (busyFlag s).setWidth 32 ||| ((errFlag s).setWidth 32 <<< 1) ||| ((errcodeFlag s).setWidth 32 <<< 4)

end Sys2Proof.Machine
end

