-- ==== Sys2Proof/Machine/Issue.lean ====
section
/-! DEFINITION. The agents' turns: issuing a command (60_exceptions.md R181), the engine's own turn (20_memory.md R70), the
host port (10_state.md R29, R30), bank accesses by other agents (R39) and resets. Step.lean only calls these. -/

namespace Sys2Proof.Machine

/-- Command issue (R181), in IDLE: `CMD <- w`, decode, check, then fault entry or acceptance. A step without a bus
access. A word that is no command faults here: ILLEGAL_CMD (R185), or for `MODE = 7` PIN_RANGE or INVALID_MODE (R187). -/
def issue (w : Word) (s : State) : Host.Outcome State Fault Refusal :=
  let s1 : State := { s with cmd := w }
  match decode w with
  | .cmd i => exec i s1
  | .invalidMode p => conclude (checkInvalidMode p) [] s1
  | .illegal => .next (s1.enterFault .illegalCmd)

/-- The engine's turn. BUSY: one micro-operation (R70). IDLE: the oldest held write is issued (R30), else it waits. FAULT:
the oldest held write is discarded like any other (R30, R190; log 5). -/
def engineTurn (s : State) : Host.Outcome State Fault Refusal :=
  match s.st with
  | .busy => microStep s
  | .idle =>
    match s.held with
    | h :: hs => issue h.word { s with held := hs }
    | [] => .next s
  | .fault => .next { s with held := s.held.tail }

/-- The host port stalls a write of a context: it is held behind those held already (R30). -/
def holdWrite (ctx : Nat) (w : Word) (s : State) : State := { s with held := s.held ++ [{ ctx := ctx, word := w }] }

/-- A write to `CMD` (R30): issued in IDLE, held in BUSY, discarded in FAULT. Behind writes already held it waits its
turn, so that commands run in the order written (20_memory.md R71). -/
def writeCmd (ctx : Nat) (w : Word) (s : State) : Host.Outcome State Fault Refusal :=
  match s.st with
  | .idle => if s.held = [] then issue w s else .next (holdWrite ctx w s)
  | .busy => .next (holdWrite ctx w s)
  | .fault => .next s

/-- The engine registers of R29. -/
inductive HostReg where
  | cmd | status | rsp0 | rsp1
  deriving DecidableEq, Repr

/-- The register at an offset from `ENGINE_BASE` (R29). -/
def hostReg? (off : Word) : Option HostReg :=
  if off = 0x00 then some .cmd
  else if off = 0x04 then some .status
  else if off = 0x08 then some .rsp0
  else if off = 0x0C then some .rsp1
  else none

/-- The register a host access of a width reaches: 32-bit and at one of the four offsets, hence aligned (R29, R62, R63). -/
def hostAccess? (P : Params) (addr : Word) (width : Nat) : Option HostReg :=
  if width = 4 then hostReg? (addr - P.engineBase) else none

/-- What a host read returns (R22 to R25). -/
def hostRegValue (s : State) : HostReg → Word
  | .cmd => s.cmd
  | .status => statusWord s
  | .rsp0 => s.rsp0
  | .rsp1 => s.rsp1

/-- A host-port read (R30): in any state, without a side effect on the engine. -/
def hostReadTurn (addr : Word) (width : Nat) (s : State) : Host.Outcome State Fault Refusal :=
  match hostAccess? s.params addr width with
  | some r => .next { s with hostData := some (hostRegValue s r) }
  | none => .refused .hostAccess

/-- A host-port write (R30): `CMD` takes a command; writes to the read-only registers are ignored. -/
def hostWriteTurn (ctx : Nat) (addr : Word) (width : Nat) (v : Word) (s : State) : Host.Outcome State Fault Refusal :=
  match hostAccess? s.params addr width with
  | some .cmd => writeCmd ctx v s
  | some .status => .next s
  | some .rsp0 => .next s
  | some .rsp1 => .next s
  | none => .refused .hostAccess

/-- A bank read by another agent (R39), with the semantics of R32 to R38. -/
def busReadTurn (addr : Word) (width : Nat) (s : State) : Host.Outcome State Fault Refusal :=
  if width = 4 then
    match memRead addr s with
    | .next (w, s') => .next { s' with busData := some w }
    | .fault f => .fault f
    | .refused r => .refused r
  else .refused .bankWidth

/-- A bank write by another agent (R39). -/
def busWriteTurn (addr : Word) (width : Nat) (v : Word) (s : State) : Host.Outcome State Fault Refusal :=
  if width = 4 then memWrite addr v s else .refused .bankWidth

/-- One turn of an agent (20_memory.md R75). A reset turn stands alone, so a step it would coincide with does not happen
(60_exceptions.md R192). -/
def takeTurn (t : Turn) (s : State) : Host.Outcome State Fault Refusal :=
  match t with
  | .engine => engineTurn s
  | .hostRead _ addr width => hostReadTurn addr width s
  | .hostWrite ctx addr width v => hostWriteTurn ctx addr width v s
  | .busRead _ addr width => busReadTurn addr width s
  | .busWrite _ addr width v => busWriteTurn addr width v s
  | .engineReset dropHeld => .next (s.engineReset dropHeld)
  | .platformReset dropHeld => .next (s.platformReset dropHeld)

/-- The host context is stalled: the host port holds a `CMD` write of it (R30, 60 R196). -/
def State.stalled (s : State) (ctx : Nat) : Bool := s.held.any fun h => h.ctx == ctx

/-- Who makes the access of a turn (R75); none for the engine's turn and the resets. -/
def Turn.madeBy : Turn → Option Agent
  | .hostRead ctx _ _ | .hostWrite ctx _ _ _ => some (.host ctx)
  | .busRead who _ _ | .busWrite who _ _ _ => some who
  | .engine | .engineReset _ | .platformReset _ => none

/-- The turn must wait: it is an access, on either port, of a host context that is stalled. So a context's `CMD` writes keep
their place among its other accesses (20_memory.md R73). -/
def State.waits (s : State) (t : Turn) : Bool :=
  match t.madeBy with
  | some (.host ctx) => s.stalled ctx
  | some .environment => false
  | none => false

/-- The next turn of the agenda. With nothing on it the outside does nothing and the turn is the engine's (log 4); a turn
that must wait stays where it is, and the engine moves (R73, log 24). -/
def nextTurn (s : State) : Host.Outcome State Fault Refusal :=
  match s.agenda with
  | t :: rest => if s.waits t then engineTurn s else takeTurn t { s with agenda := rest }
  | [] => engineTurn s

/-- `s` with a command word about to be written by host context 0: the very next step issues it. The engine is made IDLE with
nothing held, since only then a write to `CMD` is accepted at once (R30); after reset that changes nothing (log 8). -/
def placeCommand (s : State) (w : Word) : State :=
  { s with
    st := .idle
    errcode := 0
    seq := []
    held := []
    agenda := .hostWrite 0 s.params.engineBase 4 w :: s.agenda }

end Sys2Proof.Machine
end

