-- ==== Sys2Proof/Machine/Step.lean ====
section
/-! DEFINITION. One step of the machine: the next agent's turn. -/

namespace Sys2Proof.Machine

/-- One step: the next turn of the agenda, or the engine's (20_memory.md R70, R75, R76). -/
def step (s : State) : Host.Outcome State Fault Refusal := nextTurn s

/-- `s` with the table's instruction of `nbits` bits `w` as the command the host writes next (log 8). -/
def State.withFetchWord (s : State) (nbits w : Nat) : State := placeCommand s (tableWord nbits w)

end Sys2Proof.Machine
end

