-- ==== Sys2Proof/Machine/Assembler.lean ====
section
/-! DEFINITION. The assembler's lines (30_encoding.md R95) and pseudo-instructions (R96), as abstract syntax: what word
each line stands for. The textual spelling of a line is not parsed. -/

namespace Sys2Proof.Machine

/-- A pin operand (R95): a decimal index, or the notation `PA<n>`, `PB<n>`. -/
inductive AsmPin where
  | index (n : Nat) | pa (n : Nat) | pb (n : Nat)
  deriving DecidableEq, Repr

/-- One line of a program (R95, R96). -/
inductive AsmLine where
  /-- A command of the table, its pin already an index. -/
  | command (i : Instr)
  /-- `sethi p`. -/
  | sethi (p : AsmPin)
  /-- `setlo p`. -/
  | setlo (p : AsmPin)
  /-- `cfg p, Mode`. -/
  | cfg (p : AsmPin) (m : Mode)
  /-- `.word w`. -/
  | word (w : Word)
  deriving DecidableEq, Repr

/-- The pin index an operand names: `PA<n>` is n and `PB<n>` is 32 + n (R95). -/
def AsmPin.value : AsmPin → Nat
  | .index n => n
  | .pa n => n
  | .pb n => 32 + n

/-- The command a line stands for, if it is not a raw word (R96). -/
def AsmLine.expand? : AsmLine → Option Instr
  | .command i => some i
  | .sethi p => some (.setlvl p.value true)
  | .setlo p => some (.setlvl p.value false)
  | .cfg p m => some (Instr.configure p.value m)
  | .word _ => none

/-- The command word of a line (R95): pins 0..255 encode, 64..255 among them; a larger pin has no encoding. -/
def AsmLine.assemble? (l : AsmLine) : Option Word :=
  match l with
  | .word w => some w
  | _ => l.expand?.bind fun i => if i.WellFormed then some (encode i) else none

end Sys2Proof.Machine
end

