-- ==== Sys2Proof/Safety.lean ====
section
/-! DEFINITION. The terms claims use: sound parameters (00_scope.md R9), each command's checks and sequence, the
machine's invariant (10_state.md R20 to R27, R37), and the mode relation (42_configure.md R160). -/

namespace Sys2Proof.Machine

/-- What the spec asks of the parameters (R9, R61, R63): aligned bases, a bank that does not wrap, distinct bit
positions, and an offset table that gives different aligned words to different locations. -/
abbrev ParamsOk (P : Params) : Prop :=
  P.portBase.toNat % 0x80 = 0 ∧ P.portBase.toNat + 0xDF ≤ 0xFFFFFFFF ∧ P.engineBase.toNat % 0x10 = 0
    ∧ [P.posPmuxen, P.posInen, P.posPullen, P.posDrvstr].Nodup
    ∧ (allLocs.map (regOffset P)).Nodup ∧ ∀ l ∈ allLocs, (regOffset P l).toNat % 4 = 0

/-- `check(d)` of a command (R181, R184, R186): the fault it raises, if any. -/
def commandFault (P : Params) : Instr → Option FaultCode
  | .cfgOut p | .cfgIn p | .cfgPd p | .cfgPu p => checkCfg P p
  | .cfgPf p _ | .cfgPfa p _ | .cfgAn p => checkCfgMux P p
  | .setlvl p _ | .getlvl p | .rslvBit p _ => checkBit p
  | .getcfg p | .rslvCfg p => checkCfg P p
  | .getmux p | .rslvMux p => checkMux P p

/-- `seq(d)` of a command (R181): its fixed micro-operation list. -/
def commandSeq (P : Params) : Instr → List MicroOp
  | .cfgOut p => seqCfgOut P p
  | .cfgIn p => seqCfgIn P p
  | .cfgPd p => seqCfgPd P p
  | .cfgPu p => seqCfgPu P p
  | .cfgPf p s => seqCfgPf P p s
  | .cfgPfa p s => seqCfgPfa P p s
  | .cfgAn p => seqCfgAn P p
  | .setlvl p l => seqSetlvl P p l
  | .getlvl p => seqGetlvl P p
  | .getcfg p => seqGetcfg P p
  | .getmux p => seqGetmux P p
  | .rslvBit p k => seqRslvBit P p k
  | .rslvCfg p => seqRslvCfg P p
  | .rslvMux p => seqRslvMux P p

/-- The fault a command word raises when it is issued, if any (R185 to R187). -/
def wordFault (P : Params) (w : Word) : Option FaultCode :=
  match decode w with
  | .cmd i => commandFault P i
  | .invalidMode p => checkInvalidMode p
  | .illegal => some .illegalCmd

/-- The bank's canonical form: the reserved PinCfg bits hold no state (R37), so the stored words have 0 there. -/
abbrev BankWf (P : Params) (B : Bank) : Prop :=
  ∀ (b : Fin 2) (k : Fin 8), B.pincfg[b][k] &&& ~~~P.namedWord = 0

/-- How `ST`, `CMD`, `ERRCODE` and `SEQ` hang together (R20 to R23, R27, R180). IDLE: nothing to perform, no code. BUSY:
`SEQ` is what is left of the sequence of the accepted command in `CMD`, never empty. FAULT: `CMD` holds the refused word
and `ERRCODE` its fault. -/
def EngineOk (s : State) : Prop :=
  match s.st with
  | .idle => s.seq = [] ∧ s.errcode = 0
  | .busy => s.errcode = 0 ∧ s.seq ≠ [] ∧
      ∃ i, decode s.cmd = .cmd i ∧ commandFault s.params i = none ∧ s.seq <:+ commandSeq s.params i
  | .fault => s.seq = [] ∧ ∃ c, wordFault s.params s.cmd = some c ∧ s.errcode = c.code

/-- A stalled context makes no second access (R30, 20_memory.md R73), so each has at most one write held. -/
abbrev HeldOk (s : State) : Prop := (s.held.map HeldWrite.ctx).Nodup

/-- No `CMD` write of the agent is held, so that its accesses need not wait (R73). -/
abbrev Free (s : State) (who : Agent) : Prop := ∀ h ∈ s.held, who ≠ .host h.ctx

/-- The machine's invariant. -/
def StateOk (s : State) : Prop := ParamsOk s.params ∧ BankWf s.params s.bank ∧ EngineOk s ∧ HeldOk s

/-- `Encodes(p, M)` (R160): the mode a pin's registers encode, a relation over the bank's contents. -/
def Encodes (P : Params) (B : Bank) (p : Nat) : Mode → Prop
  | .output => pinDir B p = true ∧ pinCfg B p &&& P.namedMask = cfgIn P
  | .input => pinDir B p = false ∧ pinCfg B p &&& P.namedMask = cfgIn P
  | .inputPulldown => pinDir B p = false ∧ pinOut B p = false ∧ pinCfg B p &&& P.namedMask = cfgPull P
  | .inputPullup => pinDir B p = false ∧ pinOut B p = true ∧ pinCfg B p &&& P.namedMask = cfgPull P
  | .peripheral s => pinCfg B p &&& P.namedMask = cfgPf P ∧ pinMux B p = s
  | .peripheralAlt s => pinCfg B p &&& P.namedMask = cfgPfa P ∧ pinMux B p = s
  | .analog => pinCfg B p &&& P.namedMask = cfgPfa P ∧ pinMux B p = P.analogSel

/-- The outside leaves the machine alone (the premise of R76): nothing on the agenda. -/
abbrev Alone (s : State) : Prop := s.agenda = []

/-- `n` steps of the machine. -/
def run (n : Nat) (s : State) : Host.Outcome State Fault Refusal := Host.Core.run Sys2Proof.core n s

/-- The machine has answered BUSY to a command and, left alone, performs the whole of its sequence in exactly its
length of steps (R222), ending in `u`. -/
def Completes (i : Instr) (s u : State) : Prop :=
  exec i s = .next (s.accept (commandSeq s.params i))
    ∧ run (commandSeq s.params i).length (s.accept (commandSeq s.params i)) = .next u

end Sys2Proof.Machine
end

