-- ==== Sys2Proof/Certificates/Slice0/Obligations.lean ====
section
/-! DEFINITION. The statements for the provers. Offsets are written out in the numerals of 10_state.md R31 and 40_resolver.md
R105, under the premise that the parameters are the reference offsets; everything else holds for all parameters. -/

namespace Sys2Proof.Machine

/-- `0x80*(p/32) + base`: the offset of a single-bit register of pin p (R105). -/
def offBit (p base : Nat) : Word := BitVec.ofNat 32 (0x80 * (p / 32) + base)

/-- `0x80*(p/32) + 0x40 + 4*((p mod 32)/4)`: the offset of pin p's configuration register (R105, R111). -/
def offCfg (p : Nat) : Word := BitVec.ofNat 32 (0x80 * (p / 32) + 0x40 + 4 * (p % 32 / 4))

/-- `0x80*(p/32) + 0x30 + 4*((p mod 32)/8)`: the offset of pin p's multiplexer register (R105, R112). -/
def offMux (p : Nat) : Word := BitVec.ofNat 32 (0x80 * (p / 32) + 0x30 + 4 * (p % 32 / 8))

/-- The base column of R89. -/
def kindBase : Kind → Nat
  | .dir => 0x00
  | .dirclr => 0x04
  | .dirset => 0x08
  | .out => 0x10
  | .outclr => 0x14
  | .outset => 0x18
  | .input => 0x20

/-- The one-bit word of pin p (R101). -/
def bitWord (p : Nat) : Word := 1#32 <<< (p % 32)

/-- What a command may change by the time it has finished: the bank, `LAT`, the responses, `ST` and `SEQ`, and the draws
it took. Every other field is as it was when the command was accepted. -/
def State.completed (s : State) (B : Bank) (lat r0 r1 : Word) (taken : Nat) : State :=
  { s with
    st := .idle
    seq := []
    bank := B
    lat := lat
    rsp0 := r0
    rsp1 := r1
    draws := s.draws.drop taken
    drawn := s.drawn + taken }

/-- The premises under which a command of pin p runs undisturbed in the reference offset table. -/
abbrev Undisturbed (s : State) (p : Nat) : Prop :=
  ParamsOk s.params ∧ s.params.offsets = Offsets.reference ∧ Alone s ∧ p ≤ 63

/-- The word an engine read of pin p's configuration register gives in a bank, with the next draw in its reserved bits. -/
def cfgRead (s : State) (B : Bank) (p : Nat) : Word := pincfgWord s.params B (bankOf p) (cfgIndex p) s.drawWord

/-- The bank after `CFGW(p, v)` on a bank (R140, R143). -/
def afterCfgw (s : State) (B : Bank) (p : Nat) (v : Byte) : Bank :=
  Bank.setPincfg s.params B (bankOf p) (cfgIndex p) (insField (cfgRead s B p) (8 * (p % 4)) 8 (v.setWidth 32))

/-- The bank after `MUXW(p, sel)` (R140). -/
def afterMuxw (s : State) (p : Nat) (sel : Nibble) : Bank :=
  s.bank.setPmux (bankOf p) (muxIndex p)
    (insField s.bank.pmux[bankOf p][muxIndex p] (4 * (p % 8)) 4 (sel.setWidth 32))

/-- The bank's direction bit of pin p set or cleared through the port (R33). -/
def afterDir (B : Bank) (p : Nat) (d : Bool) : Bank :=
  B.setDir (bankOf p) (if d then B.dir[bankOf p] ||| bitWord p else B.dir[bankOf p] &&& ~~~bitWord p)

/-- The bank's output bit of pin p set or cleared through the port (R35). -/
def afterOut (B : Bank) (p : Nat) (l : Bool) : Bank :=
  B.setOut (bankOf p) (if l then B.out[bankOf p] ||| bitWord p else B.out[bankOf p] &&& ~~~bitWord p)

/-- The match and mask columns of 30_encoding.md R92. -/
def tableRow : Instr → Word × Word
  | .cfgOut _ => (0x00000001, 0xFFFFF00F)
  | .cfgIn _ => (0x00001001, 0xFFFFF00F)
  | .cfgPd _ => (0x00002001, 0xFFFFF00F)
  | .cfgPu _ => (0x00003001, 0xFFFFF00F)
  | .cfgPf _ _ => (0x00004001, 0xFFF0F00F)
  | .cfgPfa _ _ => (0x00005001, 0xFFF0F00F)
  | .cfgAn _ => (0x00006001, 0xFFFFF00F)
  | .setlvl _ _ => (0x00000002, 0xFFFF700F)
  | .getlvl _ => (0x00000003, 0xFFFFF00F)
  | .getcfg _ => (0x00000004, 0xFFFFF00F)
  | .getmux _ => (0x00000005, 0xFFFFF00F)
  | .rslvBit _ _ => (0x00000006, 0xFFFF800F)
  | .rslvCfg _ => (0x00000007, 0xFFFFF00F)
  | .rslvMux _ => (0x00000008, 0xFFFFF00F)

/-- The fourteen rows of R92. -/
def tableRows : List (Word × Word) :=
  [(0x00000001, 0xFFFFF00F), (0x00001001, 0xFFFFF00F), (0x00002001, 0xFFFFF00F), (0x00003001, 0xFFFFF00F),
   (0x00004001, 0xFFF0F00F), (0x00005001, 0xFFF0F00F), (0x00006001, 0xFFFFF00F), (0x00000002, 0xFFFF700F),
   (0x00000003, 0xFFFFF00F), (0x00000004, 0xFFFFF00F), (0x00000005, 0xFFFFF00F), (0x00000006, 0xFFFF800F),
   (0x00000007, 0xFFFFF00F), (0x00000008, 0xFFFFF00F)]

/-- A word matches a row of the table. -/
abbrev MatchesRow (w : Word) (r : Word × Word) : Prop := w &&& r.2 = r.1

/-- The fields R90 says an operation does not use are 0 (RSV apart). -/
abbrev unusedFieldsZero (w : Word) : Prop :=
  if opField w = 1 then lvlField w = 0 ∧ (modeField w = 4 ∨ modeField w = 5 ∨ selField w = 0)
  else if opField w = 2 then modeField w = 0 ∧ selField w = 0
  else if opField w = 6 then lvlField w = 0 ∧ selField w = 0
  else modeField w = 0 ∧ lvlField w = 0 ∧ selField w = 0

/-- The commands R184 checks for an implemented configuration register, by OP: `cfg.*`, `getcfg`, `rslv.cfg`. -/
abbrev usesCfgRegister (w : Word) : Prop := opField w = 1 ∨ opField w = 4 ∨ opField w = 7

/-- The commands R184 checks for an implemented multiplexer register: `cfg.pf`, `cfg.pfa`, `cfg.an`, `getmux`, `rslv.mux`. -/
abbrev usesMuxRegister (w : Word) : Prop :=
  (opField w = 1 ∧ (modeField w = 4 ∨ modeField w = 5 ∨ modeField w = 6)) ∨ opField w = 5 ∨ opField w = 8

/-- Whether a micro-operation reads the bank, and whether it writes it (R70). -/
def MicroOp.reads : MicroOp → Bool
  | .rd _ => true
  | .wr _ _ | .wrm _ _ _ _ | .finish _ _ => false

def MicroOp.writes : MicroOp → Bool
  | .wr _ _ | .wrm _ _ _ _ => true
  | .rd _ | .finish _ _ => false

/-- A turn that resets the engine. -/
def Turn.resets : Turn → Bool
  | .engineReset _ | .platformReset _ => true
  | .engine | .hostRead _ _ _ | .hostWrite _ _ _ _ | .busRead _ _ _ | .busWrite _ _ _ _ => false

/-- A turn in which the host or the environment makes an access. -/
def Turn.accesses : Turn → Bool
  | .hostRead _ _ _ | .hostWrite _ _ _ _ | .busRead _ _ _ | .busWrite _ _ _ _ => true
  | .engine | .engineReset _ | .platformReset _ => false

/-- The registers a configure accesses, through any port (R161): `DIR[b]` and `OUT[b]` for modes 0 to 3, the `PMUX` word for
modes 4 to 6, and the `PINCFG` word. -/
def configureLocs (p : Nat) : Mode → List BankLoc
  | .output | .input | .inputPulldown | .inputPullup =>
    [.dir (bankOf p), .dirclr (bankOf p), .dirset (bankOf p), .out (bankOf p), .outclr (bankOf p), .outset (bankOf p),
     cfgLoc p]
  | .peripheral _ | .peripheralAlt _ | .analog => [muxLoc p, cfgLoc p]

/-- A turn that is no reset and writes none of the locations. -/
def Turn.spares (P : Params) (ls : List BankLoc) : Turn → Prop
  | .busWrite _ addr _ _ => ∀ l ∈ ls, addr ≠ busAddr P (regOffset P l)
  | .engineReset _ | .platformReset _ => False
  | .engine | .hostRead _ _ _ | .hostWrite _ _ _ _ | .busRead _ _ _ => True

/-- The next turn is the engine's: said so by the agenda, or the outside does nothing, or it must wait for a held write. -/
def EngineNext (s : State) : Prop :=
  s.agenda = [] ∨ ∃ t rest, s.agenda = t :: rest ∧ (t = .engine ∨ ∃ h ∈ s.held, t.madeBy = some (.host h.ctx))

/-- The next turn resets the engine. -/
def ResetNext (s : State) : Prop := ∃ t rest, s.agenda = t :: rest ∧ t.resets = true

/-- The bits of the configuration byte a mode writes as 1 (42_configure.md R141, 00_scope.md R10). -/
def modePositions (P : Params) : Mode → List (Fin 8)
  | .output | .input => [P.posInen]
  | .inputPulldown | .inputPullup => [P.posInen, P.posPullen]
  | .peripheral _ => [P.posPmuxen, P.posDrvstr, P.posInen]
  | .peripheralAlt _ | .analog => [P.posPmuxen, P.posDrvstr]

/-- The register a set or clear port writes (R33, R35), and the level it gives a bit. -/
def portTarget (B : Bank) : BankLoc → Word
  | .dirset b | .dirclr b => B.dir[b]
  | .outset b | .outclr b => B.out[b]
  | .dir _ | .out _ | .input _ | .pmux _ _ | .pincfg _ _ => 0

def portLevel : BankLoc → Bool
  | .dirset _ | .outset _ => true
  | .dir _ | .dirclr _ | .out _ | .outclr _ | .input _ | .pmux _ _ | .pincfg _ _ => false

/-- The register a set or clear port drives (R33, R35). -/
def portRegister : BankLoc → BankLoc
  | .dirset b | .dirclr b => .dir b
  | .outset b | .outclr b => .out b
  | l => l

/-- The four set and clear ports of a bank. -/
def ports (b : Fin 2) : List BankLoc := [.dirset b, .dirclr b, .outset b, .outclr b]

end Sys2Proof.Machine

open Sys2Proof Sys2Proof.Machine

/-! ## Encoding -/

/-- Words written out from 30_encoding.md R92 and 95_test_vectors.md decode to the commands they stand for. -/
def Obligations.WrittenOutWordsDecode : Prop :=
  decode 0x00000281 = .cmd (.cfgOut 40) ∧ decode 0x00064071 = .cmd (.cfgPf 7 6)
    ∧ decode 0x00008282 = .cmd (.setlvl 40 true) ∧ decode 0x00000283 = .cmd (.getlvl 40)
    ∧ decode 0x00000054 = .cmd (.getcfg 5) ∧ decode 0x00005056 = .cmd (.rslvBit 5 .outset)
    ∧ decode 0x000003F8 = .cmd (.rslvMux 63)

/-- Decoding the word of a well-formed command gives the command back, every operand at every value (R91, R92). -/
def Obligations.DecodeOfEncodeIsTheCommand : Prop :=
  ∀ i : Instr, i.WellFormed → decode (encode i) = .cmd i

/-- A word that decodes to a command is exactly that command's encoding: no bit of it is dropped (R91, R92). -/
def Obligations.EncodeOfDecodeIsTheWord : Prop :=
  ∀ (w : Word) (i : Instr), decode w = .cmd i → i.WellFormed ∧ encode i = w

/-- Last two sentences of R91 with R92's table: every word the table accepts decodes to the row it matches (KIND 7 of
`rslv.bit` is the row's stated exception), every command's word matches its row, and no word matches two rows. -/
def Obligations.WordsDecodeToTheRowTheyMatch : Prop :=
  (∀ (w : Word) (i : Instr), decode w = .cmd i → tableRow i ∈ tableRows ∧ MatchesRow w (tableRow i))
    ∧ (∀ (w : Word) (r : Word × Word), r ∈ tableRows → MatchesRow w r →
        ¬ (opField w = 6 ∧ modeField w = 7) → ∃ i, decode w = .cmd i ∧ tableRow i = r)
    ∧ (∀ (w : Word) (r r' : Word × Word), r ∈ tableRows → r' ∈ tableRows → MatchesRow w r → MatchesRow w r' → r = r')

/-- R93: exactly the reserved words decode to Illegal, and `CFG` with `MODE = 7` and every other field legal does not. -/
def Obligations.IllegalWordsAreTheReservedOnes : Prop :=
  (∀ w : Word, decode w = .illegal ↔
      (opField w = 0 ∨ 9 ≤ (opField w).toNat) ∨ rsvField w ≠ 0 ∨ ¬ unusedFieldsZero w
        ∨ (modeField w = 7 ∧ opField w = 6))
    ∧ ∀ w : Word, rsvField w = 0 → opField w = 1 → unusedFieldsZero w → modeField w = 7 →
        decode w = .invalidMode (pinField w).toNat

/-- R96: what each pseudo-instruction stands for; R95: the index a pin notation names. The abstract lines are the model's
(log 23). -/
def Obligations.PseudoInstructionsExpand : Prop :=
  (∀ n : Nat, (AsmPin.index n).value = n ∧ (AsmPin.pa n).value = n ∧ (AsmPin.pb n).value = 32 + n)
    ∧ ∀ (p : AsmPin) (s : Nibble),
      (AsmLine.sethi p).expand? = some (.setlvl p.value true) ∧ (AsmLine.setlo p).expand? = some (.setlvl p.value false)
      ∧ (AsmLine.cfg p .output).expand? = some (.cfgOut p.value) ∧ (AsmLine.cfg p .input).expand? = some (.cfgIn p.value)
      ∧ (AsmLine.cfg p .inputPulldown).expand? = some (.cfgPd p.value)
      ∧ (AsmLine.cfg p .inputPullup).expand? = some (.cfgPu p.value)
      ∧ (AsmLine.cfg p .analog).expand? = some (.cfgAn p.value)
      ∧ (AsmLine.cfg p (.peripheral s)).expand? = some (.cfgPf p.value s)
      ∧ (AsmLine.cfg p (.peripheralAlt s)).expand? = some (.cfgPfa p.value s)

/-! ## Resolver and fields -/

/-- R105: the register identifiers, in the reference offset table. -/
def Obligations.RegisterOffsetsFollowTheFormulas : Prop :=
  ∀ (P : Params) (p : Nat) (k : Kind), P.offsets = Offsets.reference → p ≤ 63 →
    bitRegOff P p k = offBit p (kindBase k) ∧ cfgRegOff P p = offCfg p ∧ muxRegOff P p = offMux p

/-- R104: what pins share and do not share. -/
def Obligations.PinsShareOnlyWhatTheResolverSays : Prop :=
  (∀ p q : Nat, p ≤ 63 → q ≤ 63 → p ≠ q →
      (bankOf p = bankOf q → p % 32 ≠ q % 32)
        ∧ (cfgLoc p = cfgLoc q → cfgShift p + 8 ≤ cfgShift q ∨ cfgShift q + 8 ≤ cfgShift p)
        ∧ (muxLoc p = muxLoc q → muxShift p + 4 ≤ muxShift q ∨ muxShift q + 4 ≤ muxShift p))
    ∧ (∀ p : Nat, p + 4 ≤ 63 → cfgLoc p ≠ cfgLoc (p + 4))
    ∧ (∀ p : Nat, p ≤ 63 → cfgLoc p = cfgLoc (p ^^^ 3) ∧ cfgShift p ≠ cfgShift (p ^^^ 3))
    ∧ (∀ q : Nat, q ≤ 15 → [4 * q, 4 * q + 1, 4 * q + 2, 4 * q + 3].map cfgShift = [0, 8, 16, 24]
        ∧ [4 * q, 4 * q + 1, 4 * q + 2, 4 * q + 3].map cfgLoc = List.replicate 4 (cfgLoc (4 * q)))
    ∧ (∀ p : Nat, p ≤ 63 → muxLoc p = muxLoc (p ^^^ 1) ∧ muxByteShift p = muxByteShift (p ^^^ 1)
        ∧ muxNibShift p = if p % 2 = 0 then 0 else 4)

/-- R109: the four field laws. -/
def Obligations.FieldInsertionObeysItsLaws : Prop :=
  (∀ (w v : Word) (pos n : Nat), pos + n ≤ 32 → extField (insField w pos n v) pos n = v.setWidth n)
    ∧ (∀ (w v : Word) (pos n pos2 n2 : Nat), pos + n ≤ 32 → pos2 + n2 ≤ 32 → pos + n ≤ pos2 ∨ pos2 + n2 ≤ pos →
        extField (insField w pos n v) pos2 n2 = extField w pos2 n2)
    ∧ (∀ (w v1 v2 : Word) (pos n : Nat), pos + n ≤ 32 →
        insField (insField w pos n v1) pos n v2 = insField w pos n v2)
    ∧ (∀ (w : Word) (pos n : Nat), pos + n ≤ 32 → insField w pos n ((extField w pos n).setWidth 32) = w)

/-! ## Completion of every command

Each says: with the pin in range and the packed registers it uses implemented, `exec` answers BUSY with exactly the bus
sequence of the command's rule, and left alone that many engine steps end IDLE with the state written out, so with
every other field unchanged. -/

/-- `cfg.out` (R150). -/
def Obligations.CfgOutCompletes : Prop :=
  ∀ (s : State) (p : Nat), Undisturbed s p → implemented s.params (cfgLoc p) = true →
    ∃ t, exec (.cfgOut p) s = .next t
      ∧ t = s.accept [.wr (offBit p 0x08) (bitWord p), .rd (offCfg p),
              .wrm (offCfg p) (8 * (p % 4)) 8 ((cfgIn s.params).setWidth 32), .finish (.const 0) 0]
      ∧ run 4 t = .next (s.completed (afterCfgw s (afterDir s.bank p true) p (cfgIn s.params))
          (cfgRead s s.bank p) 0 0 1)

/-- `cfg.in` (R151). -/
def Obligations.CfgInCompletes : Prop :=
  ∀ (s : State) (p : Nat), Undisturbed s p → implemented s.params (cfgLoc p) = true →
    ∃ t, exec (.cfgIn p) s = .next t
      ∧ t = s.accept [.wr (offBit p 0x04) (bitWord p), .rd (offCfg p),
              .wrm (offCfg p) (8 * (p % 4)) 8 ((cfgIn s.params).setWidth 32), .finish (.const 0) 0]
      ∧ run 4 t = .next (s.completed (afterCfgw s (afterDir s.bank p false) p (cfgIn s.params))
          (cfgRead s s.bank p) 0 0 1)

/-- `cfg.pd` (R152). -/
def Obligations.CfgPdCompletes : Prop :=
  ∀ (s : State) (p : Nat), Undisturbed s p → implemented s.params (cfgLoc p) = true →
    ∃ t, exec (.cfgPd p) s = .next t
      ∧ t = s.accept [.wr (offBit p 0x04) (bitWord p), .wr (offBit p 0x14) (bitWord p), .rd (offCfg p),
              .wrm (offCfg p) (8 * (p % 4)) 8 ((cfgPull s.params).setWidth 32), .finish (.const 0) 0]
      ∧ run 5 t = .next (s.completed
          (afterCfgw s (afterOut (afterDir s.bank p false) p false) p (cfgPull s.params)) (cfgRead s s.bank p) 0 0 1)

/-- `cfg.pu` (R153). -/
def Obligations.CfgPuCompletes : Prop :=
  ∀ (s : State) (p : Nat), Undisturbed s p → implemented s.params (cfgLoc p) = true →
    ∃ t, exec (.cfgPu p) s = .next t
      ∧ t = s.accept [.wr (offBit p 0x04) (bitWord p), .wr (offBit p 0x18) (bitWord p), .rd (offCfg p),
              .wrm (offCfg p) (8 * (p % 4)) 8 ((cfgPull s.params).setWidth 32), .finish (.const 0) 0]
      ∧ run 5 t = .next (s.completed
          (afterCfgw s (afterOut (afterDir s.bank p false) p true) p (cfgPull s.params)) (cfgRead s s.bank p) 0 0 1)

/-- `cfg.pf` (R154). -/
def Obligations.CfgPfCompletes : Prop :=
  ∀ (s : State) (p : Nat) (sel : Nibble), Undisturbed s p → implemented s.params (cfgLoc p) = true →
    implemented s.params (muxLoc p) = true →
    ∃ t, exec (.cfgPf p sel) s = .next t
      ∧ t = s.accept [.rd (offMux p), .wrm (offMux p) (4 * (p % 8)) 4 (sel.setWidth 32), .rd (offCfg p),
              .wrm (offCfg p) (8 * (p % 4)) 8 ((cfgPf s.params).setWidth 32), .finish (.const 0) 0]
      ∧ run 5 t = .next (s.completed (afterCfgw s (afterMuxw s p sel) p (cfgPf s.params)) (cfgRead s s.bank p) 0 0 1)

/-- `cfg.pfa` (R155). -/
def Obligations.CfgPfaCompletes : Prop :=
  ∀ (s : State) (p : Nat) (sel : Nibble), Undisturbed s p → implemented s.params (cfgLoc p) = true →
    implemented s.params (muxLoc p) = true →
    ∃ t, exec (.cfgPfa p sel) s = .next t
      ∧ t = s.accept [.rd (offMux p), .wrm (offMux p) (4 * (p % 8)) 4 (sel.setWidth 32), .rd (offCfg p),
              .wrm (offCfg p) (8 * (p % 4)) 8 ((cfgPfa s.params).setWidth 32), .finish (.const 0) 0]
      ∧ run 5 t = .next (s.completed (afterCfgw s (afterMuxw s p sel) p (cfgPfa s.params)) (cfgRead s s.bank p) 0 0 1)

/-- `cfg.an` (R156). -/
def Obligations.CfgAnCompletes : Prop :=
  ∀ (s : State) (p : Nat), Undisturbed s p → implemented s.params (cfgLoc p) = true →
    implemented s.params (muxLoc p) = true →
    ∃ t, exec (.cfgAn p) s = .next t
      ∧ t = s.accept [.rd (offMux p), .wrm (offMux p) (4 * (p % 8)) 4 (s.params.analogSel.setWidth 32), .rd (offCfg p),
              .wrm (offCfg p) (8 * (p % 4)) 8 ((cfgPfa s.params).setWidth 32), .finish (.const 0) 0]
      ∧ run 5 t = .next (s.completed (afterCfgw s (afterMuxw s p s.params.analogSel) p (cfgPfa s.params))
          (cfgRead s s.bank p) 0 0 1)

/-- `setlvl` (R130): `OUT[b][i] <- l`, every other bit unchanged, in one access. -/
def Obligations.SetlvlCompletes : Prop :=
  ∀ (s : State) (p : Nat) (l : Bool), Undisturbed s p →
    ∃ t, exec (.setlvl p l) s = .next t
      ∧ t = s.accept [.wr (offBit p (if l then 0x18 else 0x14)) (bitWord p), .finish (.const 0) 0]
      ∧ run 2 t = .next (s.completed (afterOut s.bank p l) s.lat 0 0 0)
      ∧ pinOut (afterOut s.bank p l) p = l
      ∧ ∀ q, q ≤ 63 → q ≠ p → pinOut (afterOut s.bank p l) q = pinOut s.bank q

/-- `getlvl` (R131): bit i of one read of `IN[b]`. -/
def Obligations.GetlvlCompletes : Prop :=
  ∀ (s : State) (p : Nat), Undisturbed s p →
    ∃ t, exec (.getlvl p) s = .next t
      ∧ t = s.accept [.rd (offBit p 0x20), .finish (.latField (p % 32) 1) 0]
      ∧ run 2 t = .next (s.completed s.bank (inputWord s.params s.bank (bankOf p) s.drawWord)
          (if (inputWord s.params s.bank (bankOf p) s.drawWord).getLsbD (p % 32) then 1 else 0) 0 1)

/-- `getcfg` (R170): pin p's byte of one read; its named bits are the stored ones, its reserved bits draws. -/
def Obligations.GetcfgCompletes : Prop :=
  ∀ (s : State) (p : Nat), Undisturbed s p → implemented s.params (cfgLoc p) = true →
    ∃ t, exec (.getcfg p) s = .next t
      ∧ t = s.accept [.rd (offCfg p), .finish (.latField (8 * (p % 4)) 8) 0]
      ∧ run 2 t = .next (s.completed s.bank (cfgRead s s.bank p) ((cfgOf p (cfgRead s s.bank p)).setWidth 32) 0 1)
      ∧ cfgOf p (cfgRead s s.bank p) &&& s.params.namedMask = pinCfg s.bank p &&& s.params.namedMask
      ∧ cfgOf p (cfgRead s s.bank p) &&& ~~~s.params.namedMask = cfgOf p s.drawWord &&& ~~~s.params.namedMask

/-- `getmux` (R171): pin p's nibble as stored. -/
def Obligations.GetmuxCompletes : Prop :=
  ∀ (s : State) (p : Nat), Undisturbed s p → implemented s.params (muxLoc p) = true →
    ∃ t, exec (.getmux p) s = .next t
      ∧ t = s.accept [.rd (offMux p), .finish (.latField (4 * (p % 8)) 4) 0]
      ∧ run 2 t = .next (s.completed s.bank s.bank.pmux[bankOf p][muxIndex p] ((pinMux s.bank p).setWidth 32) 0 0)

/-- `rslv.bit` (R110): mask and register offset, without a bus access. -/
def Obligations.RslvBitCompletes : Prop :=
  ∀ (s : State) (p : Nat) (k : Kind), Undisturbed s p →
    ∃ t, exec (.rslvBit p k) s = .next t
      ∧ t = s.accept [.finish (.const (bitWord p)) (offBit p (kindBase k))]
      ∧ run 1 t = .next (s.completed s.bank s.lat (bitWord p) (offBit p (kindBase k)) 0)

/-- `rslv.cfg` (R111): byte offset and register offset. -/
def Obligations.RslvCfgCompletes : Prop :=
  ∀ (s : State) (p : Nat), Undisturbed s p → implemented s.params (cfgLoc p) = true →
    ∃ t, exec (.rslvCfg p) s = .next t
      ∧ t = s.accept [.finish (.const (BitVec.ofNat 32 (8 * (p % 4)))) (offCfg p)]
      ∧ run 1 t = .next (s.completed s.bank s.lat (BitVec.ofNat 32 (8 * (p % 4))) (offCfg p) 0)

/-- `rslv.mux` (R112): `RSP0[7:0]` byte offset, `RSP0[15:8]` nibble offset, the rest 0. -/
def Obligations.RslvMuxCompletes : Prop :=
  ∀ (s : State) (p : Nat), Undisturbed s p → implemented s.params (muxLoc p) = true →
    ∃ t, exec (.rslvMux p) s = .next t
      ∧ t = s.accept [.finish (.const (BitVec.ofNat 32 (8 * (p / 2 % 4) + 0x100 * (4 * (p % 2))))) (offMux p)]
      ∧ run 1 t = .next (s.completed s.bank s.lat (BitVec.ofNat 32 (8 * (p / 2 % 4) + 0x100 * (4 * (p % 2))))
          (offMux p) 0)

/-! ## Configure as a whole -/

/-- R161 and R164 with the machine left alone: from any bank, `configure(p, M)` completes and then (a) `Encodes(p, M)`, (b)
every other pin keeps its direction, output, named configuration bits and nibble, (c) pin p keeps the fields M does
not write, and the parameters. The byte written has exactly the bits of R141's table, and `CFG_NAMED_MASK` the four
named ones (R10); that the byte held has 0 in its reserved bits is log 13's. -/
def Obligations.ConfigureReachesItsMode : Prop :=
  ∀ (s : State) (p : Nat) (M : Mode), ParamsOk s.params → Alone s → p ≤ 63 →
    commandFault s.params (Instr.configure p M) = none →
    ∃ t u, exec (Instr.configure p M) s = .next t ∧ t.st = .busy ∧ run t.seq.length t = .next u
      ∧ u.st = .idle ∧ u.seq = [] ∧ u.params = s.params ∧ u.rsp0 = 0 ∧ u.rsp1 = 0
      ∧ Encodes s.params u.bank p M
      ∧ (∃ v : Byte, .wrm (cfgRegOff s.params p) (cfgShift p) 8 (v.setWidth 32) ∈ t.seq
          ∧ ∀ i : Fin 8, v.getLsbD i.val = decide (i ∈ modePositions s.params M))
      ∧ (∀ i : Fin 8, (pinCfg u.bank p).getLsbD i.val = decide (i ∈ modePositions s.params M)
          ∧ s.params.namedMask.getLsbD i.val
              = decide (i ∈ [s.params.posPmuxen, s.params.posInen, s.params.posPullen, s.params.posDrvstr]))
      ∧ (∀ q, q ≤ 63 → q ≠ p → pinDir u.bank q = pinDir s.bank q ∧ pinOut u.bank q = pinOut s.bank q
          ∧ pinCfg u.bank q &&& s.params.namedMask = pinCfg s.bank q &&& s.params.namedMask
          ∧ pinMux u.bank q = pinMux s.bank q)
      ∧ (M = .output ∨ M = .input → pinOut u.bank p = pinOut s.bank p ∧ pinMux u.bank p = pinMux s.bank p)
      ∧ (M = .inputPulldown ∨ M = .inputPullup → pinMux u.bank p = pinMux s.bank p)
      ∧ ((∃ x, M = .peripheral x ∨ M = .peripheralAlt x) ∨ M = .analog →
          pinDir u.bank p = pinDir s.bank p ∧ pinOut u.bank p = pinOut s.bank p)

/-- R161 among other agents: a configure accepted and carried to its `FINISH` (step n is the first after which the engine is
IDLE), whatever the others do up to then short of a reset and of writing the registers it accesses; what they do later is
free. Then (a) `Encodes(p, M)`; of (b) and (c) what lies in those registers, since nothing is assumed of the others. That
the others' turns are a list, of which `before` are the ones taken, is the model's choice (log 4). -/
def Obligations.ConfigureReachesItsModeAmongOtherAgents : Prop :=
  ∀ (s t u : State) (p n : Nat) (M : Mode) (before : List Turn), ParamsOk s.params → p ≤ 63 →
    exec (Instr.configure p M) s = .next t → t.st = .busy →
    s.agenda = before ++ u.agenda → (∀ a ∈ before, a.spares s.params (configureLocs p M)) →
    run n t = .next u → u.st = .idle → (∀ k v, k < n → run k t = .next v → v.st = .busy) →
    u.rsp0 = 0 ∧ u.rsp1 = 0 ∧ Encodes s.params u.bank p M
      ∧ (∀ q, q ≤ 63 → q ≠ p →
          (cfgLoc q = cfgLoc p → pinCfg u.bank q &&& s.params.namedMask = pinCfg s.bank q &&& s.params.namedMask)
            ∧ (muxLoc p ∈ configureLocs p M → muxLoc q = muxLoc p → pinMux u.bank q = pinMux s.bank q)
            ∧ (.dir (bankOf p) ∈ configureLocs p M → bankOf q = bankOf p →
                pinDir u.bank q = pinDir s.bank q ∧ pinOut u.bank q = pinOut s.bank q))
      ∧ (M = .output ∨ M = .input → pinOut u.bank p = pinOut s.bank p)

/-- R162 with the machine left alone: the same configure a second time leaves the bank exactly as the first did. -/
def Obligations.ConfigureIsIdempotent : Prop :=
  ∀ (s : State) (p : Nat) (M : Mode), ParamsOk s.params → Alone s → p ≤ 63 →
    commandFault s.params (Instr.configure p M) = none →
    ∃ t1 u1 t2 u2, exec (Instr.configure p M) s = .next t1 ∧ run t1.seq.length t1 = .next u1
      ∧ exec (Instr.configure p M) u1 = .next t2 ∧ run t2.seq.length t2 = .next u2
      ∧ u2.bank = u1.bank

/-- R160, R155: `cfg.pfa p, ANALOG_SEL` is carried out exactly as `cfg.an p`, and the two modes are the same contents. -/
def Obligations.AnalogIsAlternateWithItsSelector : Prop :=
  ∀ (s : State) (p : Nat), exec (.cfgPfa p s.params.analogSel) s = exec (.cfgAn p) s
    ∧ (Encodes s.params s.bank p .analog ↔ Encodes s.params s.bank p (.peripheralAlt s.params.analogSel))

/-- R132 with the machine left alone: an output reads back the level that was set. -/
def Obligations.OutputReadsBackTheLevelSet : Prop :=
  ∀ (s : State) (p : Nat) (l : Bool), ParamsOk s.params → Alone s → p ≤ 63 →
    implemented s.params (cfgLoc p) = true →
    ∃ t1 u1 t2 u2 t3 u3, exec (.cfgOut p) s = .next t1 ∧ run t1.seq.length t1 = .next u1
      ∧ exec (.setlvl p l) u1 = .next t2 ∧ run t2.seq.length t2 = .next u2
      ∧ exec (.getlvl p) u2 = .next t3 ∧ run t3.seq.length t3 = .next u3
      ∧ u3.st = .idle ∧ u3.rsp0 = if l then 1 else 0

/-- R172 with the machine left alone, for the selector writes of `cfg.pf`, `cfg.pfa` and `cfg.an`: the pin's nibble reads
back, and its sibling's is the one it had before. -/
def Obligations.NibbleReadsBackBesideItsSibling : Prop :=
  ∀ (s : State) (p : Nat) (M : Mode) (sel : Nibble), ParamsOk s.params → Alone s → p ≤ 63 →
    commandFault s.params (Instr.configure p M) = none →
    M = .peripheral sel ∨ M = .peripheralAlt sel ∨ (M = .analog ∧ sel = s.params.analogSel) →
    ∃ t1 u1 t2 u2 t3 u3, exec (Instr.configure p M) s = .next t1 ∧ run t1.seq.length t1 = .next u1
      ∧ exec (.getmux p) u1 = .next t2 ∧ run t2.seq.length t2 = .next u2
      ∧ exec (.getmux (p ^^^ 1)) u2 = .next t3 ∧ run t3.seq.length t3 = .next u3
      ∧ u2.rsp0 = sel.setWidth 32 ∧ u3.rsp0 = (pinMux s.bank (p ^^^ 1)).setWidth 32

/-- R144, R17: the sequence of a command depends only on the command and the parameters, never on the bank or on anything
else in the state. -/
def Obligations.SequenceIgnoresTheBank : Prop :=
  ∀ (i : Instr) (s s' t t' : State), s.params = s'.params → exec i s = .next t → exec i s' = .next t' →
    t.st = t'.st ∧ (t.st = .busy → t.seq = t'.seq)

/-! ## Issue and faults -/

/-- When the word a host context writes to `CMD` in IDLE, with nothing held, decodes to a command, that step is `exec` of
the command, with `CMD` holding the word and the turn off the agenda (R30, R181; the agenda is log 4's). The second clause
is the model's own: what `withFetchWord` places, IDLE with nothing held, is log 8's choice. -/
def Obligations.StepRunsTheDecodedCommand : Prop :=
  (∀ (s : State) (c : Nat) (w : Word) (rest : List Turn) (i : Instr), s.st = .idle → s.held = [] →
      s.agenda = .hostWrite c s.params.engineBase 4 w :: rest → decode w = .cmd i →
      step s = exec i { s with agenda := rest, cmd := w })
    ∧ ∀ (s : State) (w : Word) (i : Instr), decode w = .cmd i →
        step (s.withFetchWord 32 w.toNat)
          = exec i { s with st := .idle, errcode := 0, seq := [], held := [], cmd := w }

/-- R181, R186: a word issued ends in exactly one of these, the first that applies: ILLEGAL_CMD, PIN_RANGE, INVALID_MODE,
PIN_UNIMPL, or BUSY; only `CMD` and the fields of that outcome change. -/
def Obligations.IssueReportsTheFirstFault : Prop :=
  ∀ (s : State) (w : Word), ∃ t, issue w s = .next t ∧
    let p := (pinField w).toNat
    (decode w = .illegal → t = { s with cmd := w, st := .fault, errcode := 4 })
      ∧ (decode w ≠ .illegal → 63 < p → t = { s with cmd := w, st := .fault, errcode := 1 })
      ∧ (decode w ≠ .illegal → p ≤ 63 → opField w = 1 → modeField w = 7 →
          t = { s with cmd := w, st := .fault, errcode := 3 })
      ∧ (decode w ≠ .illegal → p ≤ 63 → ¬ (opField w = 1 ∧ modeField w = 7) →
          (usesCfgRegister w ∧ implemented s.params (cfgLoc p) = false
            ∨ usesMuxRegister w ∧ implemented s.params (muxLoc p) = false) →
          t = { s with cmd := w, st := .fault, errcode := 2 })
      ∧ (decode w ≠ .illegal → p ≤ 63 → ¬ (opField w = 1 ∧ modeField w = 7) →
          ¬ (usesCfgRegister w ∧ implemented s.params (cfgLoc p) = false
            ∨ usesMuxRegister w ∧ implemented s.params (muxLoc p) = false) →
          ∃ i, decode w = .cmd i ∧ t = { s with cmd := w, st := .busy, seq := commandSeq s.params i })

/-- R183: every command, and every word that decodes to a `cfg` with `MODE = 7` as well, faults PIN_RANGE on a pin above 63;
nothing but `ST` and `ERRCODE`, and at issue `CMD`, changes (R182). -/
def Obligations.OutOfRangePinsFault : Prop :=
  (∀ (i : Instr) (s : State), 63 < i.pin → exec i s = .next { s with st := .fault, errcode := 1 })
    ∧ ∀ (w : Word) (s : State), decode w ≠ .illegal → 63 < (pinField w).toNat →
        issue w s = .next { s with cmd := w, st := .fault, errcode := 1 }

/-- R184: which commands fault PIN_UNIMPL on a register the package lacks, and that `setlvl`, `getlvl` and `rslv.bit`
never do. -/
def Obligations.UnimplementedRegistersFault : Prop :=
  ∀ (s : State) (p : Nat) (sel : Nibble) (l : Bool) (k : Kind), p ≤ 63 →
    (implemented s.params (cfgLoc p) = false →
        ∀ i ∈ [Instr.cfgOut p, .cfgIn p, .cfgPd p, .cfgPu p, .cfgPf p sel, .cfgPfa p sel, .cfgAn p, .getcfg p,
            .rslvCfg p], exec i s = .next { s with st := .fault, errcode := 2 })
      ∧ (implemented s.params (muxLoc p) = false →
        ∀ i ∈ [Instr.cfgPf p sel, .cfgPfa p sel, .cfgAn p, .getmux p, .rslvMux p],
          exec i s = .next { s with st := .fault, errcode := 2 })
      ∧ ∀ i ∈ [Instr.setlvl p l, .getlvl p, .rslvBit p k],
          exec i s = .next { s with st := .busy, seq := commandSeq s.params i }

/-- R182: fault entry changes `ST` and `ERRCODE` alone, and `STATUS` then reads `0x2 | (code << 4)`. -/
def Obligations.FaultEntryIsPreciseAndShown : Prop :=
  ∀ (s : State) (c : FaultCode), State.enterFault c s = { s with st := .fault, errcode := c.code }
    ∧ statusWord (s.enterFault c) = 0x2#32 ||| (c.code.setWidth 32 <<< 4)

/-- R190: no step but a reset leaves FAULT or changes `CMD`, `ERRCODE` or the responses there. -/
def Obligations.OnlyResetLeavesFault : Prop :=
  ∀ s t : State, s.st = .fault → step s = .next t → ¬ ResetNext s →
    t.st = .fault ∧ t.errcode = s.errcode ∧ t.cmd = s.cmd ∧ t.rsp0 = s.rsp0 ∧ t.rsp1 = s.rsp1 ∧ t.lat = s.lat
      ∧ t.seq = s.seq

/-- R191, R189: in a sound state a BUSY engine's step always answers, never a fault, and stays BUSY or ends IDLE. -/
def Obligations.BusyEngineNeverFaults : Prop :=
  ∀ s : State, StateOk s → s.st = .busy →
    ∃ t, engineTurn s = .next t ∧ t.errcode = 0 ∧ (t.st = .busy ∧ t.seq ≠ [] ∨ t.st = .idle ∧ t.seq = [])

/-- In a sound state only an access by the host or the environment, and one that is taken rather than made to wait (log 24), can
end the run (R29, R40, R41, R189): the engine's own turn always answers. -/
def Obligations.OnlyOutsideAccessesStop : Prop :=
  ∀ s : State, StateOk s → (∀ t, step s ≠ .next t) →
    (∃ a rest, s.agenda = a :: rest ∧ a.accesses = true ∧ s.waits a = false ∧ ¬ EngineNext s)
      ∧ ∃ t, engineTurn s = .next t

/-! ## The engine's registers -/

/-- R42, R23: what reset leaves in the engine. -/
def Obligations.ResetLeavesTheEngineIdle : Prop :=
  State.reset.st = .idle ∧ State.reset.cmd = 0 ∧ State.reset.errcode = 0 ∧ State.reset.rsp0 = 0
    ∧ State.reset.rsp1 = 0 ∧ State.reset.lat = 0 ∧ State.reset.seq = [] ∧ statusWord State.reset = 0

/-- R210: reset, in any state, sets the engine's registers and leaves the bank. That the turn says whether held writes stay is
log 6's choice. -/
def Obligations.EngineResetKeepsTheBank : Prop :=
  ∀ (s : State) (d : Bool) (rest : List Turn), s.agenda = .engineReset d :: rest →
    step s = .next { s with
      agenda := rest, st := .idle, cmd := 0, errcode := 0, rsp0 := 0, rsp1 := 0, lat := 0, seq := [],
      held := if d then [] else s.held }

/-- R43, R198, R212: platform reset, or power-down and restore, does what engine reset does and leaves 28 fresh draws in the
bank's registers, cut to the named bits in a configuration register. That the draws are the next 28 is log 3's choice, that the
turn says whether held writes stay is log 6's. -/
def Obligations.PlatformResetRedrawsTheBank : Prop :=
  ∀ (s : State) (d : Bool) (rest : List Turn), s.agenda = .platformReset d :: rest →
    step s = .next { s with
      agenda := rest, st := .idle, cmd := 0, errcode := 0, rsp0 := 0, rsp1 := 0, lat := 0, seq := [],
      held := if d then [] else s.held, drawn := s.drawn + 28,
      bank := {
        dir := Vector.ofFn fun b => Config.freeWord (s.drawn + b.val)
        out := Vector.ofFn fun b => Config.freeWord (s.drawn + 2 + b.val)
        pincfg := Vector.ofFn fun b => Vector.ofFn fun k =>
          Config.freeWord (s.drawn + 4 + 8 * b.val + k.val) &&& s.params.namedWord
        pmux := Vector.ofFn fun b => Vector.ofFn fun k => Config.freeWord (s.drawn + 20 + 4 * b.val + k.val) } }

/-- R23: every bit of `STATUS`, and that `ERR` is sticky: a step clears it only by a reset. -/
def Obligations.StatusShowsTheEngine : Prop :=
  (∀ (s : State) (i : Nat), (statusWord s).getLsbD i
    = if i = 0 then decide (s.st = .busy) else if i = 1 then decide (s.st = .fault)
      else if 4 ≤ i ∧ i < 8 then decide (s.st = .fault) && s.errcode.getLsbD (i - 4) else false)
    ∧ ∀ s t : State, (statusWord s).getLsbD 1 = true → step s = .next t → ¬ ResetNext s →
        (statusWord t).getLsbD 1 = true

/-- R30 with R29: a read of one of the four registers, by a host context with no write held, returns its value and changes
nothing in the machine. R73: where it shows `BUSY` 0, the engine has nothing left to perform. -/
def Obligations.HostReadsReturnTheRegister : Prop :=
  (∀ (s : State) (c : Nat) (rest : List Turn) (off v : Word),
    (off = 0x00 ∧ v = s.cmd) ∨ (off = 0x04 ∧ v = statusWord s) ∨ (off = 0x08 ∧ v = s.rsp0) ∨ (off = 0x0C ∧ v = s.rsp1) →
    s.agenda = .hostRead c (s.params.engineBase + off) 4 :: rest → Free s (.host c) →
    step s = .next { s with agenda := rest, hostData := some v })
    ∧ ∀ (s t : State) (c : Nat) (rest : List Turn) (v : Word), StateOk s →
      s.agenda = .hostRead c (s.params.engineBase + 0x04) 4 :: rest → Free s (.host c) → step s = .next t →
      t.hostData = some v → v.getLsbD 0 = false → t.st ≠ .busy ∧ t.seq = [] ∧ Free t (.host c)

/-- R30 with R29: a write by a host context with none held: to `CMD` it is issued in IDLE, held in BUSY and discarded in
FAULT, to another engine register it is ignored. R73: while a write of a context is held, no access of that context on
either port happens: the engine moves and the turn stays (log 24). These are
the model's (log 5): that a free context's write in IDLE waits behind writes still held, and that the engine's turn issues the
oldest of them in IDLE and discards it in FAULT. -/
def Obligations.HostWritesIssueHoldOrVanish : Prop :=
  (∀ (s : State) (c : Nat) (rest : List Turn) (off v : Word),
    s.agenda = .hostWrite c (s.params.engineBase + off) 4 v :: rest → Free s (.host c) →
    (off = 0x00 → s.st = .idle → s.held = [] → step s = issue v { s with agenda := rest })
      ∧ (off = 0x00 → s.st = .busy ∨ (s.st = .idle ∧ s.held ≠ []) →
          step s = .next { s with agenda := rest, held := s.held ++ [{ ctx := c, word := v }] })
      ∧ (off = 0x00 → s.st = .fault → step s = .next { s with agenda := rest })
      ∧ (off = 0x04 ∨ off = 0x08 ∨ off = 0x0C → step s = .next { s with agenda := rest }))
    ∧ (∀ (s : State) (h : HeldWrite) (hs : List HeldWrite), s.held = h :: hs →
      (s.st = .idle → engineTurn s = issue h.word { s with held := hs })
        ∧ (s.st = .fault → engineTurn s = .next { s with held := hs })
        ∧ (s.agenda = [] → step s = engineTurn s)
        ∧ ∀ rest, s.agenda = .engine :: rest → step s = engineTurn { s with agenda := rest })
    ∧ ∀ (s : State) (a : Turn) (rest : List Turn) (h : HeldWrite), s.agenda = a :: rest → h ∈ s.held →
      a.madeBy = some (.host h.ctx) →
      step s = engineTurn s ∧ ∀ t, step s = .next t → t.agenda = s.agenda ∧ t.hostData = s.hostData
        ∧ t.busData = s.busData

/-- R29, R62, R63: a host access of another width or at another offset is refused. -/
def Obligations.OtherHostAccessesAreRefused : Prop :=
  ∀ (s : State) (c : Nat) (rest : List Turn) (off v : Word) (width : Nat),
    width ≠ 4 ∨ (off ≠ 0x00 ∧ off ≠ 0x04 ∧ off ≠ 0x08 ∧ off ≠ 0x0C) → Free s (.host c) →
    (s.agenda = .hostRead c (s.params.engineBase + off) width :: rest → step s = .refused .hostAccess)
      ∧ (s.agenda = .hostWrite c (s.params.engineBase + off) width v :: rest → step s = .refused .hostAccess)

/-- R24, R25: `RSP0` and `RSP1` change only in the engine's `FINISH`, which writes its own values, or at a reset. -/
def Obligations.ResponsesChangeOnlyAtFinish : Prop :=
  ∀ s t : State, step s = .next t → t.rsp0 ≠ s.rsp0 ∨ t.rsp1 ≠ s.rsp1 →
    ResetNext s ∨ (EngineNext s ∧ s.st = .busy ∧ ∃ r0 r1 ops, s.seq = .finish r0 r1 :: ops
      ∧ t.rsp0 = r0.eval s.lat ∧ t.rsp1 = r1 ∧ t.st = .idle)

/-- R21: the transitions of `ST`, each with its cause, and no other. -/
def Obligations.SequencerTransitionsAreTheFive : Prop :=
  ∀ s t : State, step s = .next t → t.st = s.st
    ∨ (s.st = .idle ∧ t.st = .busy ∧ ∃ i, decode t.cmd = .cmd i ∧ commandFault s.params i = none)
    ∨ (s.st = .idle ∧ t.st = .fault ∧ ∃ c, wordFault s.params t.cmd = some c)
    ∨ (s.st = .busy ∧ t.st = .idle ∧ EngineNext s ∧ ∃ r0 r1 ops, s.seq = .finish r0 r1 :: ops)
    ∨ (t.st = .idle ∧ ResetNext s)

/-- R222: a BUSY engine left alone reaches IDLE after exactly the length of its `SEQ`, which is at most 5 (R27); `CMD`, the
parameters and the held writes are as before. -/
def Obligations.BusyEngineFinishesInItsLength : Prop :=
  ∀ s : State, StateOk s → Alone s → s.st = .busy →
    s.seq.length ≤ 5 ∧ ∃ t, run s.seq.length s = .next t ∧ t.st = .idle ∧ t.seq = [] ∧ t.cmd = s.cmd
      ∧ t.params = s.params ∧ t.held = s.held

/-- R30, R222: a held write is issued, by the engine's own steps, right after the command in progress finishes. -/
def Obligations.HeldWriteIsIssuedNext : Prop :=
  ∀ (s : State) (h : HeldWrite) (hs : List HeldWrite), StateOk s → Alone s → s.st = .busy → s.held = h :: hs →
    ∃ t, run s.seq.length s = .next t ∧ t.st = .idle ∧ step t = issue h.word { t with held := hs }

/-- R220: the bus accesses and engine steps of every command. -/
def Obligations.AccessCountsAreTheTable : Prop :=
  ∀ (P : Params) (p : Nat) (sel : Nibble) (l : Bool) (k : Kind),
    let counts := fun i => ((commandSeq P i).countP MicroOp.reads, (commandSeq P i).countP MicroOp.writes,
      (commandSeq P i).length)
    (∀ i ∈ [Instr.cfgOut p, .cfgIn p], counts i = (1, 2, 4))
      ∧ (∀ i ∈ [Instr.cfgPd p, .cfgPu p], counts i = (1, 3, 5))
      ∧ (∀ i ∈ [Instr.cfgPf p sel, .cfgPfa p sel, .cfgAn p], counts i = (2, 2, 5))
      ∧ counts (.setlvl p l) = (0, 1, 2)
      ∧ (∀ i ∈ [Instr.getlvl p, .getcfg p, .getmux p], counts i = (1, 0, 2))
      ∧ ∀ i ∈ [Instr.rslvBit p k, .rslvCfg p, .rslvMux p], counts i = (0, 0, 1)

/-! ## The register bank -/

/-- R32, R34, R40, R61: an accepted command writes only set and clear ports, reads only input and packed registers, merges
only into packed registers, every packed register it names exists, and it ends with its only `FINISH`; at most five
micro-operations in all (R27). -/
def Obligations.EngineReachesOnlyPortsAndPackedRegisters : Prop :=
  ∀ (P : Params) (i : Instr), commandFault P i = none →
    ∃ (ops : List MicroOp) (r0 : Resp0) (r1 : Word), commandSeq P i = ops ++ [.finish r0 r1] ∧ ops.length ≤ 4
      ∧ ∀ op ∈ ops, ∃ l : BankLoc, implemented P l = true ∧
          ((∃ v b, op = .wr (regOffset P l) v ∧ l ∈ [BankLoc.dirset b, .dirclr b, .outset b, .outclr b])
            ∨ (op = .rd (regOffset P l) ∧ ∃ b k m, l ∈ [BankLoc.input b, .pincfg b k, .pmux b m])
            ∨ ∃ pos n v b k m, op = .wrm (regOffset P l) pos n v ∧ l ∈ [BankLoc.pincfg b k, .pmux b m])

/-- R32, R34, R39: another agent's write at the plain `DIR` or `OUT` replaces all 32 bits and changes nothing else; its read
returns the stored word, which the model records (log 7), and changes nothing else. Any bank read another agent is answered
leaves the engine and the bank alone: only the agenda, the record and the draws change. -/
def Obligations.PlainRegistersAreReadAndReplacedWhole : Prop :=
  (∀ (s : State) (b : Fin 2) (v : Word) (who : Agent) (rest : List Turn), ParamsOk s.params → Free s who →
    let at_ := fun l => busAddr s.params (regOffset s.params l)
    (s.agenda = .busWrite who (at_ (.dir b)) 4 v :: rest →
        step s = .next { s with agenda := rest, bank := { s.bank with dir := s.bank.dir.set b v } })
      ∧ (s.agenda = .busWrite who (at_ (.out b)) 4 v :: rest →
        step s = .next { s with agenda := rest, bank := { s.bank with out := s.bank.out.set b v } })
      ∧ (s.agenda = .busRead who (at_ (.dir b)) 4 :: rest →
        step s = .next { s with agenda := rest, busData := some s.bank.dir[b] })
      ∧ (s.agenda = .busRead who (at_ (.out b)) 4 :: rest →
        step s = .next { s with agenda := rest, busData := some s.bank.out[b] }))
    ∧ ∀ (s t : State) (who : Agent) (a : Word) (n : Nat) (rest : List Turn), Free s who →
      s.agenda = .busRead who a n :: rest → step s = .next t →
      ∃ w s', memRead a { s with agenda := rest } = .next (w, s')
        ∧ t = { s with agenda := rest, busData := some w, draws := t.draws, drawn := t.drawn }

/-- R33, R35: a write of v to a set or clear port sets or clears exactly the one bits of v, in one update, and changes nothing
else in the machine. That a read of such a port, which R33 leaves unmodelled, is refused is log 11's. -/
def Obligations.SetAndClearPortsTouchOnlyOneBits : Prop :=
  ∀ (s : State) (b : Fin 2) (v : Word), ParamsOk s.params →
    let write := fun l => memWrite (busAddr s.params (regOffset s.params l)) v s
    write (.dirset b) = .next (s.withBank (s.bank.setDir b (s.bank.dir[b] ||| v)))
      ∧ write (.dirclr b) = .next (s.withBank (s.bank.setDir b (s.bank.dir[b] &&& ~~~v)))
      ∧ write (.outset b) = .next (s.withBank (s.bank.setOut b (s.bank.out[b] ||| v)))
      ∧ write (.outclr b) = .next (s.withBank (s.bank.setOut b (s.bank.out[b] &&& ~~~v)))
      ∧ ∀ l ∈ [BankLoc.dirset b, .dirclr b, .outset b, .outclr b],
          memRead (busAddr s.params (regOffset s.params l)) s = .refused .writePortRead

/-- R66: two writes to set and clear ports, of one bank or two, for different bits, have the same effect in either order, and
both take effect. Bits of different registers are different, whatever their index. -/
def Obligations.PortWritesToDifferentBitsNeverLoseEachOther : Prop :=
  ∀ (s : State) (b b' : Fin 2) (v w : Word) (l l' : BankLoc), l ∈ ports b → l' ∈ ports b' →
    (portRegister l = portRegister l' → v &&& w = 0) →
    ∃ s1 s2 t, bankWrite l v s = .next s1 ∧ bankWrite l' w s1 = .next t
      ∧ bankWrite l' w s = .next s2 ∧ bankWrite l v s2 = .next t
      ∧ (∀ i, i < 32 → v.getLsbD i = true → (portTarget t.bank l).getLsbD i = portLevel l)
      ∧ (∀ i, i < 32 → w.getLsbD i = true → (portTarget t.bank l').getLsbD i = portLevel l')

/-- R36: every bit of a read of `IN[b]`, and that a write has no effect. That one read takes exactly one draw word, and what
the state is after it, is log 2's choice. -/
def Obligations.InputReadsBackOrDraws : Prop :=
  ∀ (s : State) (b : Fin 2) (v : Word), ParamsOk s.params →
    (∃ w, memRead (busAddr s.params (regOffset s.params (.input b))) s = .next (w, s.afterDraw)
      ∧ ∀ j : Fin 32,
          let c := cfgOf (32 * b.val + j.val) s.bank.pincfg[b][cfgIndex j.val]
          w.getLsbD j.val =
            if s.bank.dir[b].getLsbD j.val = true ∧ s.params.cfgImpl[b][cfgIndex j.val] = true
                ∧ c.getLsbD s.params.posInen.val = true ∧ c.getLsbD s.params.posPmuxen.val = false
            then s.bank.out[b].getLsbD j.val else s.drawWord.getLsbD j.val)
      ∧ memWrite (busAddr s.params (regOffset s.params (.input b))) v s = .next s

/-- R37, R38: a packed register that exists reads back what was written, but for the reserved PinCfg bits, which are a draw;
every other packed register keeps its contents. -/
def Obligations.PackedRegistersReadBack : Prop :=
  ∀ (s : State) (b : Fin 2) (k : Fin 8) (m : Fin 4) (v : Word), ParamsOk s.params →
    (s.params.cfgImpl[b][k] = true →
      ∃ t, memWrite (busAddr s.params (regOffset s.params (.pincfg b k))) v s = .next t
        ∧ memRead (busAddr s.params (regOffset s.params (.pincfg b k))) t
            = .next ((v &&& s.params.namedWord) ||| (s.drawWord &&& ~~~s.params.namedWord), t.afterDraw)
        ∧ (∀ b' k', (b', k') ≠ (b, k) → t.bank.pincfg[b'][k'] = s.bank.pincfg[b'][k'])
        ∧ t = s.withBank t.bank ∧ t.bank.dir = s.bank.dir ∧ t.bank.out = s.bank.out ∧ t.bank.pmux = s.bank.pmux)
      ∧ (s.params.muxImpl[b][m] = true →
        ∃ t, memWrite (busAddr s.params (regOffset s.params (.pmux b m))) v s = .next t
          ∧ memRead (busAddr s.params (regOffset s.params (.pmux b m))) t = .next (v, t)
          ∧ (∀ b' m', (b', m') ≠ (b, m) → t.bank.pmux[b'][m'] = s.bank.pmux[b'][m'])
          ∧ t = s.withBank t.bank ∧ t.bank.dir = s.bank.dir ∧ t.bank.out = s.bank.out
          ∧ t.bank.pincfg = s.bank.pincfg)

/-- R40, R41, R62: with the reference table, an access by another agent that is not 32 bits wide, or at an offset R31 does not
list (a gap, above the surface, not a multiple of 4), or to a packed register the package lacks, is refused by name. -/
def Obligations.AccessesOutsideTheSurfaceAreRefused : Prop :=
  ∀ (s : State) (off v : Word) (width : Nat), s.params.offsets = Offsets.reference →
    (width ≠ 4 → busReadTurn (s.params.portBase + off) width s = .refused .bankWidth
      ∧ busWriteTurn (s.params.portBase + off) width v s = .refused .bankWidth)
      ∧ ((0x100 ≤ off.toNat ∨ off.toNat % 0x80 ∈ [0x0C, 0x1C, 0x24, 0x28, 0x2C] ∨ 0x60 ≤ off.toNat % 0x80
            ∨ off.toNat % 4 ≠ 0) →
        busReadTurn (s.params.portBase + off) 4 s = .refused .unlistedOffset
          ∧ busWriteTurn (s.params.portBase + off) 4 v s = .refused .unlistedOffset)
      ∧ ∀ (b : Fin 2),
        (∀ k : Fin 8, s.params.cfgImpl[b][k] = false → off = BitVec.ofNat 32 (0x80 * b.val + 0x40 + 4 * k.val) →
          busReadTurn (s.params.portBase + off) 4 s = .refused .unimplementedRegister
            ∧ busWriteTurn (s.params.portBase + off) 4 v s = .refused .unimplementedRegister)
        ∧ ∀ m : Fin 4, s.params.muxImpl[b][m] = false → off = BitVec.ofNat 32 (0x80 * b.val + 0x30 + 4 * m.val) →
          busReadTurn (s.params.portBase + off) 4 s = .refused .unimplementedRegister
            ∧ busWriteTurn (s.params.portBase + off) 4 v s = .refused .unimplementedRegister

/-- R67, R77, R188: another agent's write between the read and the write-back of a packed read-modify-write is lost,
silently, in a `PMUX` word and in the named bits of a `PINCFG` word (its reserved bits hold no state, R37, and read as the
draw the read took, log 2). -/
def Obligations.UpdateBetweenReadAndWriteBackIsLost : Prop :=
  (∀ (s : State) (b : Fin 2) (k : Fin 4) (pos n : Nat) (v W : Word) (ops : List MicroOp) (rest : List Turn) (who : Agent),
    ParamsOk s.params → s.params.muxImpl[b][k] = true → s.st = .busy → Free s who →
    s.seq = .rd (regOffset s.params (.pmux b k)) :: .wrm (regOffset s.params (.pmux b k)) pos n v :: ops →
    s.agenda = .engine :: .busWrite who (busAddr s.params (regOffset s.params (.pmux b k))) 4 W :: .engine :: rest →
    ∃ s1 s2 t, step s = .next s1 ∧ step s1 = .next s2 ∧ step s2 = .next t
      ∧ s2.bank.pmux[b][k] = W
      ∧ t = { s with
          agenda := rest, seq := ops, lat := s.bank.pmux[b][k], bank := t.bank }
      ∧ t.bank = s.bank.setPmux b k (insField s.bank.pmux[b][k] pos n v))
    ∧ ∀ (s : State) (b : Fin 2) (k : Fin 8) (pos n : Nat) (v W : Word) (ops : List MicroOp) (rest : List Turn) (who : Agent),
      ParamsOk s.params → s.params.cfgImpl[b][k] = true → s.st = .busy → Free s who →
      s.seq = .rd (regOffset s.params (.pincfg b k)) :: .wrm (regOffset s.params (.pincfg b k)) pos n v :: ops →
      s.agenda = .engine :: .busWrite who (busAddr s.params (regOffset s.params (.pincfg b k))) 4 W :: .engine :: rest →
      let old := pincfgWord s.params s.bank b k s.drawWord
      ∃ s1 s2 t, step s = .next s1 ∧ step s1 = .next s2 ∧ step s2 = .next t
        ∧ s2.bank.pincfg[b][k] = W &&& s.params.namedWord
        ∧ t = { s with
            agenda := rest, seq := ops, lat := old, bank := t.bank, draws := s.draws.drop 1, drawn := s.drawn + 1 }
        ∧ t.bank = Bank.setPincfg s.params s.bank b k (insField old pos n v)

/-! ## The machine as a whole -/

/-- Every step of a sound state leads to a sound state, with the same parameters (R9, R20 to R27, R30, R37). -/
def Obligations.EveryStepKeepsTheMachineSound : Prop :=
  ∀ s t : State, StateOk s → step s = .next t → StateOk t ∧ t.params = s.params

/-- The machine is sound at reset. -/
def Obligations.ResetIsSound : Prop := StateOk State.reset
end

