-- ==== Sys2Proof/Laws/State.lean ====
section
/-! SUPPORT. What each named update of State does to each field: one lemma per field per update. -/

namespace Sys2Proof.Machine

variable (s : State)

@[simp] theorem State.withBank_params (B : Bank) : (s.withBank B).params = s.params := rfl
@[simp] theorem State.withBank_st (B : Bank) : (s.withBank B).st = s.st := rfl
@[simp] theorem State.withBank_cmd (B : Bank) : (s.withBank B).cmd = s.cmd := rfl
@[simp] theorem State.withBank_errcode (B : Bank) : (s.withBank B).errcode = s.errcode := rfl
@[simp] theorem State.withBank_rsp0 (B : Bank) : (s.withBank B).rsp0 = s.rsp0 := rfl
@[simp] theorem State.withBank_rsp1 (B : Bank) : (s.withBank B).rsp1 = s.rsp1 := rfl
@[simp] theorem State.withBank_lat (B : Bank) : (s.withBank B).lat = s.lat := rfl
@[simp] theorem State.withBank_seq (B : Bank) : (s.withBank B).seq = s.seq := rfl
@[simp] theorem State.withBank_bank (B : Bank) : (s.withBank B).bank = B := rfl
@[simp] theorem State.withBank_held (B : Bank) : (s.withBank B).held = s.held := rfl
@[simp] theorem State.withBank_agenda (B : Bank) : (s.withBank B).agenda = s.agenda := rfl
@[simp] theorem State.withBank_hostData (B : Bank) : (s.withBank B).hostData = s.hostData := rfl
@[simp] theorem State.withBank_busData (B : Bank) : (s.withBank B).busData = s.busData := rfl
@[simp] theorem State.withBank_draws (B : Bank) : (s.withBank B).draws = s.draws := rfl
@[simp] theorem State.withBank_drawn (B : Bank) : (s.withBank B).drawn = s.drawn := rfl

@[simp] theorem State.withLat_params (w : Word) : (s.withLat w).params = s.params := rfl
@[simp] theorem State.withLat_st (w : Word) : (s.withLat w).st = s.st := rfl
@[simp] theorem State.withLat_cmd (w : Word) : (s.withLat w).cmd = s.cmd := rfl
@[simp] theorem State.withLat_errcode (w : Word) : (s.withLat w).errcode = s.errcode := rfl
@[simp] theorem State.withLat_rsp0 (w : Word) : (s.withLat w).rsp0 = s.rsp0 := rfl
@[simp] theorem State.withLat_rsp1 (w : Word) : (s.withLat w).rsp1 = s.rsp1 := rfl
@[simp] theorem State.withLat_lat (w : Word) : (s.withLat w).lat = w := rfl
@[simp] theorem State.withLat_seq (w : Word) : (s.withLat w).seq = s.seq := rfl
@[simp] theorem State.withLat_bank (w : Word) : (s.withLat w).bank = s.bank := rfl
@[simp] theorem State.withLat_held (w : Word) : (s.withLat w).held = s.held := rfl
@[simp] theorem State.withLat_agenda (w : Word) : (s.withLat w).agenda = s.agenda := rfl
@[simp] theorem State.withLat_hostData (w : Word) : (s.withLat w).hostData = s.hostData := rfl
@[simp] theorem State.withLat_busData (w : Word) : (s.withLat w).busData = s.busData := rfl
@[simp] theorem State.withLat_draws (w : Word) : (s.withLat w).draws = s.draws := rfl
@[simp] theorem State.withLat_drawn (w : Word) : (s.withLat w).drawn = s.drawn := rfl

@[simp] theorem State.withSeq_params (ops : List MicroOp) : (s.withSeq ops).params = s.params := rfl
@[simp] theorem State.withSeq_st (ops : List MicroOp) : (s.withSeq ops).st = s.st := rfl
@[simp] theorem State.withSeq_cmd (ops : List MicroOp) : (s.withSeq ops).cmd = s.cmd := rfl
@[simp] theorem State.withSeq_errcode (ops : List MicroOp) : (s.withSeq ops).errcode = s.errcode := rfl
@[simp] theorem State.withSeq_rsp0 (ops : List MicroOp) : (s.withSeq ops).rsp0 = s.rsp0 := rfl
@[simp] theorem State.withSeq_rsp1 (ops : List MicroOp) : (s.withSeq ops).rsp1 = s.rsp1 := rfl
@[simp] theorem State.withSeq_lat (ops : List MicroOp) : (s.withSeq ops).lat = s.lat := rfl
@[simp] theorem State.withSeq_seq (ops : List MicroOp) : (s.withSeq ops).seq = ops := rfl
@[simp] theorem State.withSeq_bank (ops : List MicroOp) : (s.withSeq ops).bank = s.bank := rfl
@[simp] theorem State.withSeq_held (ops : List MicroOp) : (s.withSeq ops).held = s.held := rfl
@[simp] theorem State.withSeq_agenda (ops : List MicroOp) : (s.withSeq ops).agenda = s.agenda := rfl
@[simp] theorem State.withSeq_hostData (ops : List MicroOp) : (s.withSeq ops).hostData = s.hostData := rfl
@[simp] theorem State.withSeq_busData (ops : List MicroOp) : (s.withSeq ops).busData = s.busData := rfl
@[simp] theorem State.withSeq_draws (ops : List MicroOp) : (s.withSeq ops).draws = s.draws := rfl
@[simp] theorem State.withSeq_drawn (ops : List MicroOp) : (s.withSeq ops).drawn = s.drawn := rfl

@[simp] theorem State.finish_params (r0 r1 : Word) : (s.finish r0 r1).params = s.params := rfl
@[simp] theorem State.finish_st (r0 r1 : Word) : (s.finish r0 r1).st = .idle := rfl
@[simp] theorem State.finish_cmd (r0 r1 : Word) : (s.finish r0 r1).cmd = s.cmd := rfl
@[simp] theorem State.finish_errcode (r0 r1 : Word) : (s.finish r0 r1).errcode = s.errcode := rfl
@[simp] theorem State.finish_rsp0 (r0 r1 : Word) : (s.finish r0 r1).rsp0 = r0 := rfl
@[simp] theorem State.finish_rsp1 (r0 r1 : Word) : (s.finish r0 r1).rsp1 = r1 := rfl
@[simp] theorem State.finish_lat (r0 r1 : Word) : (s.finish r0 r1).lat = s.lat := rfl
@[simp] theorem State.finish_seq (r0 r1 : Word) : (s.finish r0 r1).seq = s.seq := rfl
@[simp] theorem State.finish_bank (r0 r1 : Word) : (s.finish r0 r1).bank = s.bank := rfl
@[simp] theorem State.finish_held (r0 r1 : Word) : (s.finish r0 r1).held = s.held := rfl
@[simp] theorem State.finish_agenda (r0 r1 : Word) : (s.finish r0 r1).agenda = s.agenda := rfl
@[simp] theorem State.finish_hostData (r0 r1 : Word) : (s.finish r0 r1).hostData = s.hostData := rfl
@[simp] theorem State.finish_busData (r0 r1 : Word) : (s.finish r0 r1).busData = s.busData := rfl
@[simp] theorem State.finish_draws (r0 r1 : Word) : (s.finish r0 r1).draws = s.draws := rfl
@[simp] theorem State.finish_drawn (r0 r1 : Word) : (s.finish r0 r1).drawn = s.drawn := rfl

@[simp] theorem State.accept_params (ops : List MicroOp) : (s.accept ops).params = s.params := rfl
@[simp] theorem State.accept_st (ops : List MicroOp) : (s.accept ops).st = .busy := rfl
@[simp] theorem State.accept_cmd (ops : List MicroOp) : (s.accept ops).cmd = s.cmd := rfl
@[simp] theorem State.accept_errcode (ops : List MicroOp) : (s.accept ops).errcode = s.errcode := rfl
@[simp] theorem State.accept_rsp0 (ops : List MicroOp) : (s.accept ops).rsp0 = s.rsp0 := rfl
@[simp] theorem State.accept_rsp1 (ops : List MicroOp) : (s.accept ops).rsp1 = s.rsp1 := rfl
@[simp] theorem State.accept_lat (ops : List MicroOp) : (s.accept ops).lat = s.lat := rfl
@[simp] theorem State.accept_seq (ops : List MicroOp) : (s.accept ops).seq = ops := rfl
@[simp] theorem State.accept_bank (ops : List MicroOp) : (s.accept ops).bank = s.bank := rfl
@[simp] theorem State.accept_held (ops : List MicroOp) : (s.accept ops).held = s.held := rfl
@[simp] theorem State.accept_agenda (ops : List MicroOp) : (s.accept ops).agenda = s.agenda := rfl
@[simp] theorem State.accept_hostData (ops : List MicroOp) : (s.accept ops).hostData = s.hostData := rfl
@[simp] theorem State.accept_busData (ops : List MicroOp) : (s.accept ops).busData = s.busData := rfl
@[simp] theorem State.accept_draws (ops : List MicroOp) : (s.accept ops).draws = s.draws := rfl
@[simp] theorem State.accept_drawn (ops : List MicroOp) : (s.accept ops).drawn = s.drawn := rfl

@[simp] theorem State.enterFault_params (c : FaultCode) : (s.enterFault c).params = s.params := rfl
@[simp] theorem State.enterFault_st (c : FaultCode) : (s.enterFault c).st = .fault := rfl
@[simp] theorem State.enterFault_cmd (c : FaultCode) : (s.enterFault c).cmd = s.cmd := rfl
@[simp] theorem State.enterFault_errcode (c : FaultCode) : (s.enterFault c).errcode = c.code := rfl
@[simp] theorem State.enterFault_rsp0 (c : FaultCode) : (s.enterFault c).rsp0 = s.rsp0 := rfl
@[simp] theorem State.enterFault_rsp1 (c : FaultCode) : (s.enterFault c).rsp1 = s.rsp1 := rfl
@[simp] theorem State.enterFault_lat (c : FaultCode) : (s.enterFault c).lat = s.lat := rfl
@[simp] theorem State.enterFault_seq (c : FaultCode) : (s.enterFault c).seq = s.seq := rfl
@[simp] theorem State.enterFault_bank (c : FaultCode) : (s.enterFault c).bank = s.bank := rfl
@[simp] theorem State.enterFault_held (c : FaultCode) : (s.enterFault c).held = s.held := rfl
@[simp] theorem State.enterFault_agenda (c : FaultCode) : (s.enterFault c).agenda = s.agenda := rfl
@[simp] theorem State.enterFault_hostData (c : FaultCode) : (s.enterFault c).hostData = s.hostData := rfl
@[simp] theorem State.enterFault_busData (c : FaultCode) : (s.enterFault c).busData = s.busData := rfl
@[simp] theorem State.enterFault_draws (c : FaultCode) : (s.enterFault c).draws = s.draws := rfl
@[simp] theorem State.enterFault_drawn (c : FaultCode) : (s.enterFault c).drawn = s.drawn := rfl

@[simp] theorem State.afterDraw_params : (s.afterDraw).params = s.params := rfl
@[simp] theorem State.afterDraw_st : (s.afterDraw).st = s.st := rfl
@[simp] theorem State.afterDraw_cmd : (s.afterDraw).cmd = s.cmd := rfl
@[simp] theorem State.afterDraw_errcode : (s.afterDraw).errcode = s.errcode := rfl
@[simp] theorem State.afterDraw_rsp0 : (s.afterDraw).rsp0 = s.rsp0 := rfl
@[simp] theorem State.afterDraw_rsp1 : (s.afterDraw).rsp1 = s.rsp1 := rfl
@[simp] theorem State.afterDraw_lat : (s.afterDraw).lat = s.lat := rfl
@[simp] theorem State.afterDraw_seq : (s.afterDraw).seq = s.seq := rfl
@[simp] theorem State.afterDraw_bank : (s.afterDraw).bank = s.bank := rfl
@[simp] theorem State.afterDraw_held : (s.afterDraw).held = s.held := rfl
@[simp] theorem State.afterDraw_agenda : (s.afterDraw).agenda = s.agenda := rfl
@[simp] theorem State.afterDraw_hostData : (s.afterDraw).hostData = s.hostData := rfl
@[simp] theorem State.afterDraw_busData : (s.afterDraw).busData = s.busData := rfl
@[simp] theorem State.afterDraw_draws : (s.afterDraw).draws = s.draws.tail := rfl
@[simp] theorem State.afterDraw_drawn : (s.afterDraw).drawn = s.drawn + 1 := rfl

@[simp] theorem State.engineReset_params (d : Bool) : (s.engineReset d).params = s.params := rfl
@[simp] theorem State.engineReset_st (d : Bool) : (s.engineReset d).st = .idle := rfl
@[simp] theorem State.engineReset_cmd (d : Bool) : (s.engineReset d).cmd = 0 := rfl
@[simp] theorem State.engineReset_errcode (d : Bool) : (s.engineReset d).errcode = 0 := rfl
@[simp] theorem State.engineReset_rsp0 (d : Bool) : (s.engineReset d).rsp0 = 0 := rfl
@[simp] theorem State.engineReset_rsp1 (d : Bool) : (s.engineReset d).rsp1 = 0 := rfl
@[simp] theorem State.engineReset_lat (d : Bool) : (s.engineReset d).lat = 0 := rfl
@[simp] theorem State.engineReset_seq (d : Bool) : (s.engineReset d).seq = [] := rfl
@[simp] theorem State.engineReset_bank (d : Bool) : (s.engineReset d).bank = s.bank := rfl
@[simp] theorem State.engineReset_held (d : Bool) : (s.engineReset d).held = if d then [] else s.held := rfl
@[simp] theorem State.engineReset_agenda (d : Bool) : (s.engineReset d).agenda = s.agenda := rfl
@[simp] theorem State.engineReset_hostData (d : Bool) : (s.engineReset d).hostData = s.hostData := rfl
@[simp] theorem State.engineReset_busData (d : Bool) : (s.engineReset d).busData = s.busData := rfl
@[simp] theorem State.engineReset_draws (d : Bool) : (s.engineReset d).draws = s.draws := rfl
@[simp] theorem State.engineReset_drawn (d : Bool) : (s.engineReset d).drawn = s.drawn := rfl

@[simp] theorem State.platformReset_params (d : Bool) : (s.platformReset d).params = s.params := rfl
@[simp] theorem State.platformReset_st (d : Bool) : (s.platformReset d).st = .idle := rfl
@[simp] theorem State.platformReset_cmd (d : Bool) : (s.platformReset d).cmd = 0 := rfl
@[simp] theorem State.platformReset_errcode (d : Bool) : (s.platformReset d).errcode = 0 := rfl
@[simp] theorem State.platformReset_rsp0 (d : Bool) : (s.platformReset d).rsp0 = 0 := rfl
@[simp] theorem State.platformReset_rsp1 (d : Bool) : (s.platformReset d).rsp1 = 0 := rfl
@[simp] theorem State.platformReset_lat (d : Bool) : (s.platformReset d).lat = 0 := rfl
@[simp] theorem State.platformReset_seq (d : Bool) : (s.platformReset d).seq = [] := rfl
@[simp] theorem State.platformReset_bank (d : Bool) : (s.platformReset d).bank = Bank.drawnFrom s.params.namedWord s.drawn := rfl
@[simp] theorem State.platformReset_held (d : Bool) : (s.platformReset d).held = if d then [] else s.held := rfl
@[simp] theorem State.platformReset_agenda (d : Bool) : (s.platformReset d).agenda = s.agenda := rfl
@[simp] theorem State.platformReset_hostData (d : Bool) : (s.platformReset d).hostData = s.hostData := rfl
@[simp] theorem State.platformReset_busData (d : Bool) : (s.platformReset d).busData = s.busData := rfl
@[simp] theorem State.platformReset_draws (d : Bool) : (s.platformReset d).draws = s.draws := rfl
@[simp] theorem State.platformReset_drawn (d : Bool) : (s.platformReset d).drawn = s.drawn + Bank.drawCount := rfl

end Sys2Proof.Machine
end

