-- ==== Sys2Proof/Laws/Bank.lean ====
section
/-! SUPPORT. The register bank: locations and addresses, what each write leaves, and that every operation keeps the
bank's canonical form (`BankWf`). -/

namespace Sys2Proof.Machine

theorem mem_allLocs (l : BankLoc) : l ∈ allLocs := by
  cases l with
  | pmux b k => fin_cases b <;> fin_cases k <;> decide
  | pincfg b k => fin_cases b <;> fin_cases k <;> decide
  | _ b => fin_cases b <;> decide

theorem find?_of_nodup_map {α β : Type} [DecidableEq β] (f : α → β) :
    ∀ (xs : List α) (a : α), (xs.map f).Nodup → a ∈ xs → xs.find? (fun x => f x == f a) = some a := by
  intro xs a
  induction xs with
  | nil => intro _ h; cases h
  | cons x xs ih =>
    intro hn hm
    rw [List.map_cons, List.nodup_cons] at hn
    rcases List.mem_cons.mp hm with rfl | hm
    · simp
    · have : f x ≠ f a := fun h => hn.1 (h ▸ List.mem_map_of_mem hm)
      simp [this, ih hn.2 hm]

/-- The bank finds every location at its own offset (R31). -/
theorem locAt?_regOffset (P : Params) (h : ParamsOk P) (l : BankLoc) : locAt? P (regOffset P l) = some l :=
  find?_of_nodup_map (regOffset P) allLocs l h.2.2.2.2.1 (mem_allLocs l)

theorem locAt?_busAddr (P : Params) (h : ParamsOk P) (l : BankLoc) :
    locAt? P (busAddr P (regOffset P l) - P.portBase) = some l := by
  rw [busAddr, BitVec.add_comm, BitVec.add_sub_cancel, locAt?_regOffset P h]

/-- An engine write reaches the location it names (R61, R69). -/
theorem memWrite_regOffset (s : State) (h : ParamsOk s.params) (l : BankLoc) (v : Word) :
    memWrite (busAddr s.params (regOffset s.params l)) v s = bankWrite l v s := by
  rw [memWrite, locAt?_busAddr _ h]

/-- An engine read reaches the location it names (R61, R69). -/
theorem memRead_regOffset (s : State) (h : ParamsOk s.params) (l : BankLoc) :
    memRead (busAddr s.params (regOffset s.params l)) s = bankRead l s := by
  rw [memRead, locAt?_busAddr _ h]

/-- Everything a bank write can answer: a new bank and nothing else changed, or a refusal of an absent register. -/
theorem bankWrite_cases (l : BankLoc) (v : Word) (s : State) :
    (∃ B, bankWrite l v s = .next (s.withBank B)) ∨ bankWrite l v s = .refused .unimplementedRegister := by
  cases l with
  | input b => exact .inl ⟨s.bank, rfl⟩
  | pmux b k =>
    simp only [bankWrite]
    split
    · exact .inl ⟨_, rfl⟩
    · exact .inr rfl
  | pincfg b k =>
    simp only [bankWrite]
    split
    · exact .inl ⟨_, rfl⟩
    · exact .inr rfl
  | _ b => exact .inl ⟨_, rfl⟩

/-- Everything a bank read can answer: a word and the state with at most one draw taken, or a refusal. -/
theorem bankRead_cases (l : BankLoc) (s : State) :
    (∃ w, bankRead l s = .next (w, s) ∨ bankRead l s = .next (w, s.afterDraw))
      ∨ ∃ r, bankRead l s = .refused r := by
  cases l with
  | dir b => exact .inl ⟨_, .inl rfl⟩
  | out b => exact .inl ⟨_, .inl rfl⟩
  | input b => exact .inl ⟨_, .inr rfl⟩
  | pmux b k =>
    simp only [bankRead]
    split
    · exact .inl ⟨_, .inl rfl⟩
    · exact .inr ⟨_, rfl⟩
  | pincfg b k =>
    simp only [bankRead]
    split
    · exact .inl ⟨_, .inr rfl⟩
    · exact .inr ⟨_, rfl⟩
  | _ b => exact .inr ⟨_, rfl⟩

/-- A memory write only exchanges the bank, or refuses. -/
theorem memWrite_cases (a v : Word) (s : State) :
    (∃ B, memWrite a v s = .next (s.withBank B)) ∨ ∃ r, memWrite a v s = .refused r := by
  rw [memWrite]
  split
  · rcases bankWrite_cases _ v s with h | h
    · exact .inl h
    · exact .inr ⟨_, h⟩
  · exact .inr ⟨_, rfl⟩

/-- A memory read changes at most the supply of draws, or refuses. -/
theorem memRead_cases (a : Word) (s : State) :
    (∃ w, memRead a s = .next (w, s) ∨ memRead a s = .next (w, s.afterDraw)) ∨ ∃ r, memRead a s = .refused r := by
  rw [memRead]
  split
  · exact bankRead_cases _ s
  · exact .inr ⟨_, rfl⟩

@[simp] theorem Bank.setDir_dir (B : Bank) (b : Fin 2) (v : Word) : (B.setDir b v).dir = B.dir.set b v := rfl
@[simp] theorem Bank.setDir_out (B : Bank) (b : Fin 2) (v : Word) : (B.setDir b v).out = B.out := rfl
@[simp] theorem Bank.setDir_pincfg (B : Bank) (b : Fin 2) (v : Word) : (B.setDir b v).pincfg = B.pincfg := rfl
@[simp] theorem Bank.setDir_pmux (B : Bank) (b : Fin 2) (v : Word) : (B.setDir b v).pmux = B.pmux := rfl
@[simp] theorem Bank.setOut_dir (B : Bank) (b : Fin 2) (v : Word) : (B.setOut b v).dir = B.dir := rfl
@[simp] theorem Bank.setOut_out (B : Bank) (b : Fin 2) (v : Word) : (B.setOut b v).out = B.out.set b v := rfl
@[simp] theorem Bank.setOut_pincfg (B : Bank) (b : Fin 2) (v : Word) : (B.setOut b v).pincfg = B.pincfg := rfl
@[simp] theorem Bank.setOut_pmux (B : Bank) (b : Fin 2) (v : Word) : (B.setOut b v).pmux = B.pmux := rfl
@[simp] theorem Bank.setPincfg_dir (P : Params) (B : Bank) (b : Fin 2) (k : Fin 8) (v : Word) :
    (Bank.setPincfg P B b k v).dir = B.dir := rfl
@[simp] theorem Bank.setPincfg_out (P : Params) (B : Bank) (b : Fin 2) (k : Fin 8) (v : Word) :
    (Bank.setPincfg P B b k v).out = B.out := rfl
@[simp] theorem Bank.setPincfg_pmux (P : Params) (B : Bank) (b : Fin 2) (k : Fin 8) (v : Word) :
    (Bank.setPincfg P B b k v).pmux = B.pmux := rfl
@[simp] theorem Bank.setPmux_dir (B : Bank) (b : Fin 2) (k : Fin 4) (v : Word) : (B.setPmux b k v).dir = B.dir := rfl
@[simp] theorem Bank.setPmux_out (B : Bank) (b : Fin 2) (k : Fin 4) (v : Word) : (B.setPmux b k v).out = B.out := rfl
@[simp] theorem Bank.setPmux_pincfg (B : Bank) (b : Fin 2) (k : Fin 4) (v : Word) :
    (B.setPmux b k v).pincfg = B.pincfg := rfl

/-- `PINCFG` after a write: the named bits of the written word in the register, every other register as it was. -/
theorem Bank.setPincfg_get (P : Params) (B : Bank) (b b' : Fin 2) (k k' : Fin 8) (v : Word) :
    (Bank.setPincfg P B b k v).pincfg[b'][k']
      = if b' = b ∧ k' = k then v &&& P.namedWord else B.pincfg[b'][k'] := by
  simp only [Bank.setPincfg, Fin.getElem_fin, Vector.getElem_set]
  by_cases hb : b' = b
  · subst hb
    by_cases hk : k' = k
    · simp [hk]
    · have : ¬ (k : Nat) = k' := fun h => hk (Fin.ext h.symm)
      simp [hk, this]
  · have : ¬ (b : Nat) = b' := fun h => hb (Fin.ext h.symm)
    simp [hb, this]

/-- `PMUX` after a write: the written word in the register, every other register as it was. -/
theorem Bank.setPmux_get (B : Bank) (b b' : Fin 2) (k k' : Fin 4) (v : Word) :
    (B.setPmux b k v).pmux[b'][k'] = if b' = b ∧ k' = k then v else B.pmux[b'][k'] := by
  simp only [Bank.setPmux, Fin.getElem_fin, Vector.getElem_set]
  by_cases hb : b' = b
  · subst hb
    by_cases hk : k' = k
    · simp [hk]
    · have : ¬ (k : Nat) = k' := fun h => hk (Fin.ext h.symm)
      simp [hk, this]
  · have : ¬ (b : Nat) = b' := fun h => hb (Fin.ext h.symm)
    simp [hb, this]

/-- A bank register after a write to one of the two banks. -/
theorem Vector.get_set_fin (v : Vector Word 2) (b b' : Fin 2) (w : Word) :
    (v.set b w)[b'] = if b' = b then w else v[b'] := by
  simp only [Fin.getElem_fin, Vector.getElem_set]
  by_cases hb : b' = b
  · simp [hb]
  · have : ¬ (b : Nat) = b' := fun h => hb (Fin.ext h.symm)
    simp [hb, this]

theorem setPincfg_keeps_wf (P : Params) (B : Bank) (b : Fin 2) (k : Fin 8) (v : Word) (h : BankWf P B) :
    BankWf P (Bank.setPincfg P B b k v) := by
  intro b' k'
  rw [Bank.setPincfg_get]
  split
  · rw [BitVec.and_assoc, BitVec.and_not_self]; simp
  · exact h b' k'

/-- Every write keeps the bank's canonical form. -/
theorem bankWrite_keeps_wf (l : BankLoc) (v : Word) (s s' : State) (h : BankWf s.params s.bank)
    (e : bankWrite l v s = .next s') : BankWf s'.params s'.bank := by
  cases l with
  | pincfg b k =>
    simp only [bankWrite] at e
    split at e
    · cases e; exact setPincfg_keeps_wf _ _ _ _ _ h
    · cases e
  | pmux b k =>
    simp only [bankWrite] at e
    split at e
    · cases e; exact h
    · cases e
  | _ b => cases e; exact h

theorem memWrite_keeps_wf (a v : Word) (s s' : State) (h : BankWf s.params s.bank)
    (e : memWrite a v s = .next s') : BankWf s'.params s'.bank := by
  rw [memWrite] at e
  split at e
  · exact bankWrite_keeps_wf _ v s s' h e
  · cases e

/-- A bank of draws is in canonical form (R37, R43). -/
theorem drawnFrom_wf (P : Params) (n : Nat) : BankWf P (Bank.drawnFrom P.namedWord n) := by
  intro b k
  simp only [Bank.drawnFrom, Fin.getElem_fin, Vector.getElem_ofFn]
  rw [BitVec.and_assoc, BitVec.and_not_self]; simp

end Sys2Proof.Machine
end

