-- ==== Sys2Proof/Laws/Decode.lean ====
section
/-! SUPPORT. The fields of a packed command word (30_encoding.md R86, R92). -/

namespace Sys2Proof

variable (op : BitVec 4) (pin : BitVec 8) (mode : BitVec 3) (lvl : BitVec 1) (sel : BitVec 4)

/-- The bits of a packed word, field by field. -/
theorem getLsbD_packWord (i : Nat) (hi : i < 32) :
    (packWord op pin mode lvl sel).getLsbD i
      = if i < 4 then op.getLsbD i else if i < 12 then pin.getLsbD (i - 4)
        else if i < 15 then mode.getLsbD (i - 12) else if i < 16 then lvl.getLsbD (i - 15)
        else if i < 20 then sel.getLsbD (i - 16) else false := by
  simp only [packWord, BitVec.getLsbD_or, BitVec.getLsbD_shiftLeft, BitVec.getLsbD_setWidth, hi]
  interval_cases i <;> simp

theorem opField_packWord : opField (packWord op pin mode lvl sel) = op := by
  apply BitVec.eq_of_getLsbD_eq
  intro i hi
  rw [opField, wordField, BitVec.getLsbD_extractLsb', getLsbD_packWord _ _ _ _ _ _ (by omega)]
  interval_cases i <;> simp

theorem pinField_packWord : pinField (packWord op pin mode lvl sel) = pin := by
  apply BitVec.eq_of_getLsbD_eq
  intro i hi
  rw [pinField, wordField, BitVec.getLsbD_extractLsb', getLsbD_packWord _ _ _ _ _ _ (by omega)]
  interval_cases i <;> simp

theorem modeField_packWord : modeField (packWord op pin mode lvl sel) = mode := by
  apply BitVec.eq_of_getLsbD_eq
  intro i hi
  rw [modeField, wordField, BitVec.getLsbD_extractLsb', getLsbD_packWord _ _ _ _ _ _ (by omega)]
  interval_cases i <;> simp

theorem lvlField_packWord : lvlField (packWord op pin mode lvl sel) = lvl := by
  apply BitVec.eq_of_getLsbD_eq
  intro i hi
  rw [lvlField, wordField, BitVec.getLsbD_extractLsb', getLsbD_packWord _ _ _ _ _ _ (by omega)]
  interval_cases i
  simp

theorem selField_packWord : selField (packWord op pin mode lvl sel) = sel := by
  apply BitVec.eq_of_getLsbD_eq
  intro i hi
  rw [selField, wordField, BitVec.getLsbD_extractLsb', getLsbD_packWord _ _ _ _ _ _ (by omega)]
  interval_cases i <;> simp

theorem rsvField_packWord : rsvField (packWord op pin mode lvl sel) = 0 := by
  apply BitVec.eq_of_getLsbD_eq
  intro i hi
  rw [rsvField, wordField, BitVec.getLsbD_extractLsb', getLsbD_packWord _ _ _ _ _ _ (by omega)]
  interval_cases i <;> simp

/-- A word is its fields: repacking them and RSV = 0 gives it back. -/
theorem packWord_fields (w : Word) (h : rsvField w = 0) :
    packWord (opField w) (pinField w) (modeField w) (lvlField w) (selField w) = w := by
  apply BitVec.eq_of_getLsbD_eq
  intro i hi
  have hr : ∀ j, j < 12 → w.getLsbD (20 + j) = false := by
    intro j hj
    have := congrArg (fun v => v.getLsbD j) h
    simpa [rsvField, wordField, BitVec.getLsbD_extractLsb', hj] using this
  have hr' : 20 ≤ i → w.getLsbD i = false := by
    intro h20
    have := hr (i - 20) (by omega)
    rwa [Nat.add_sub_cancel' h20] at this
  rw [getLsbD_packWord _ _ _ _ _ _ hi]
  simp only [opField, pinField, modeField, lvlField, selField, wordField, BitVec.getLsbD_extractLsb']
  split_ifs with h1 h2 h3 h4 h5
  · simp [h1]
  · have e : 4 + (i - 4) = i := by omega
    have e2 : i - 4 < 8 := by omega
    simp [e, e2]
  · have e : 12 + (i - 12) = i := by omega
    have e2 : i - 12 < 3 := by omega
    simp [e, e2]
  · have e : 15 + (i - 15) = i := by omega
    have e2 : i - 15 < 1 := by omega
    simp [e, e2]
  · have e : 16 + (i - 16) = i := by omega
    have e2 : i - 16 < 4 := by omega
    simp [e, e2]
  · exact (hr' (by omega)).symm

/-- KIND codes read back (R89). -/
theorem Kind.ofCode?_code (k : Kind) : Kind.ofCode? k.code = some k := by cases k <;> decide

/-- Decoding a packed word sees exactly the packed fields (R91). -/
theorem decode_packWord :
    decode (packWord op pin mode lvl sel) = decodeFields op pin.toNat mode lvl sel := by
  simp only [decode, opField_packWord, pinField_packWord, modeField_packWord, lvlField_packWord,
    selField_packWord, rsvField_packWord, ne_eq, not_true_eq_false, if_false]

end Sys2Proof
end

