-- ==== Sys2Proof/Laws/Fields.lean ====
section
/-! SUPPORT. Bit-by-bit spec lemmas of the field operations (00_scope.md R12, 40_resolver.md R107, R108). -/

namespace Sys2Proof.Machine

theorem getLsbD_fieldMask (n i : Nat) : (fieldMask n).getLsbD i = (decide (i < 32) && decide (i < n)) := by
  have h : fieldMask n = BitVec.ofNat 32 (2 ^ n - 1) := by
    apply BitVec.eq_of_toNat_eq
    unfold fieldMask
    by_cases hn : n < 32
    · have h1 : 2 ^ n < 2 ^ 32 := Nat.pow_lt_pow_right (by omega) hn
      have h2 : 0 < 2 ^ n := Nat.two_pow_pos n
      simp only [BitVec.toNat_sub, BitVec.toNat_shiftLeft, BitVec.toNat_ofNat, Nat.shiftLeft_eq]
      omega
    · have h1 : (1#32 <<< n) = 0#32 := by
        apply BitVec.eq_of_getLsbD_eq
        intro i hi
        simp only [BitVec.getLsbD_shiftLeft]
        simp
        intros
        omega
      rw [h1]
      have h2 : 2 ^ 32 ∣ 2 ^ n := Nat.pow_dvd_pow 2 (by omega)
      have h3 : 0 < 2 ^ n := Nat.two_pow_pos n
      obtain ⟨k, hk⟩ := h2
      simp only [BitVec.toNat_sub, BitVec.toNat_ofNat]
      omega
  rw [h]
  simp only [BitVec.getLsbD_ofNat, Nat.testBit_two_pow_sub_one]

@[simp] theorem getLsbD_extField (w : Word) (pos n i : Nat) :
    (extField w pos n).getLsbD i = (decide (i < n) && w.getLsbD (pos + i)) := by
  simp [extField]

/-- `ins` bit by bit: inside the field the new value, outside the old word (R12). -/
theorem getLsbD_insField (w : Word) (pos n : Nat) (v : Word) (i : Nat) (hi : i < 32) :
    (insField w pos n v).getLsbD i = if pos ≤ i ∧ i < pos + n then v.getLsbD (i - pos) else w.getLsbD i := by
  simp only [insField, BitVec.getLsbD_or, BitVec.getLsbD_and, BitVec.getLsbD_not, BitVec.getLsbD_shiftLeft,
    getLsbD_fieldMask, BitVec.getLsbD_setWidth, hi]
  by_cases h1 : i < pos
  · have : ¬ (pos ≤ i ∧ i < pos + n) := by omega
    simp [h1, this]
  · have h3 : i - pos < 32 := by omega
    by_cases h2 : i < pos + n
    · have hc : pos ≤ i ∧ i < pos + n := by omega
      have h4 : i - pos < n := by omega
      simp [h1, hc, h3, h4]
    · have hc : ¬ (pos ≤ i ∧ i < pos + n) := by omega
      have h4 : ¬ i - pos < n := by omega
      simp [h1, hc, h3, h4]

@[simp] theorem getLsbD_wordOfBits (f : Fin 32 → Bool) (i : Nat) :
    (wordOfBits f).getLsbD i = if h : i < 32 then f ⟨i, h⟩ else false := by
  rw [wordOfBits, BitVec.getLsbD_ofFnLE]

/-- A one-bit mask bit by bit (R101). -/
theorem getLsbD_maskOf (p i : Nat) (hi : i < 32) : (maskOf p).getLsbD i = decide (i = p % 32) := by
  simp only [maskOf, BitVec.getLsbD_shiftLeft, hi]
  by_cases h : i = p % 32
  · simp [h]
  · by_cases h2 : i < p % 32
    · simp [h, h2]
    · have h3 : i - p % 32 ≠ 0 := by omega
      simp [h, h2, BitVec.getLsbD_one, h3]

/-- `CFG_NAMED_MASK` repeated in every byte (R10, R37). -/
theorem getLsbD_namedWord (P : Params) (i : Nat) (hi : i < 32) :
    P.namedWord.getLsbD i = P.namedMask.getLsbD (i % 8) := by
  simp only [Params.namedWord, BitVec.getLsbD_append]
  by_cases h1 : i < 8
  · simp [h1, Nat.mod_eq_of_lt h1]
  · by_cases h2 : i < 16
    · have : i % 8 = i - 8 := by omega
      have h3 : i - 8 < 8 := by omega
      simp [h1, h3, this]
    · by_cases h4 : i < 24
      · have : i % 8 = i - 8 - 8 := by omega
        have h3 : ¬ i - 8 < 8 := by omega
        have h5 : i - 8 - 8 < 8 := by omega
        simp [h1, h3, h5, this]
      · have : i % 8 = i - 8 - 8 - 8 := by omega
        have h3 : ¬ i - 8 < 8 := by omega
        have h5 : ¬ i - 8 - 8 < 8 := by omega
        simp [h1, h3, h5, this]

end Sys2Proof.Machine
end

