-- ==== Sys2Proof/Laws/PerInstr.lean ====
section
/-! SUPPORT. The family `FieldLayout`: in the word of every well-formed command, `PIN` holds the pin, `OP` is not the
reserved code 0, and `RSV` is 0 (30_encoding.md R86, R87, R90). -/

namespace Sys2Proof.Laws.FieldLayout

/-- What the family says of one command. -/
def Statement (i : Instr) : Prop :=
  i.WellFormed → (pinField (encode i)).toNat = i.pin ∧ opField (encode i) ≠ 0 ∧ rsvField (encode i) = 0

theorem of_packWord (i : Instr) (op : BitVec 4) (m : BitVec 3) (l : BitVec 1) (s : BitVec 4)
    (h : encode i = packWord op (BitVec.ofNat 8 i.pin) m l s) (hop : op ≠ 0) : Statement i := by
  intro hw
  rw [h, pinField_packWord, opField_packWord, rsvField_packWord]
  exact ⟨by simpa using hw, hop, rfl⟩

theorem cfgOut (p : Nat) : Statement (.cfgOut p) := of_packWord _ _ _ _ _ rfl (by decide)
theorem cfgIn (p : Nat) : Statement (.cfgIn p) := of_packWord _ _ _ _ _ rfl (by decide)
theorem cfgPd (p : Nat) : Statement (.cfgPd p) := of_packWord _ _ _ _ _ rfl (by decide)
theorem cfgPu (p : Nat) : Statement (.cfgPu p) := of_packWord _ _ _ _ _ rfl (by decide)
theorem cfgPf (p : Nat) (s : Nibble) : Statement (.cfgPf p s) := of_packWord _ _ _ _ _ rfl (by decide)
theorem cfgPfa (p : Nat) (s : Nibble) : Statement (.cfgPfa p s) := of_packWord _ _ _ _ _ rfl (by decide)
theorem cfgAn (p : Nat) : Statement (.cfgAn p) := of_packWord _ _ _ _ _ rfl (by decide)
theorem setlvl (p : Nat) (l : Bool) : Statement (.setlvl p l) := of_packWord _ _ _ _ _ rfl (by decide)
theorem getlvl (p : Nat) : Statement (.getlvl p) := of_packWord _ _ _ _ _ rfl (by decide)
theorem getcfg (p : Nat) : Statement (.getcfg p) := of_packWord _ _ _ _ _ rfl (by decide)
theorem getmux (p : Nat) : Statement (.getmux p) := of_packWord _ _ _ _ _ rfl (by decide)
theorem rslvBit (p : Nat) (k : Kind) : Statement (.rslvBit p k) := of_packWord _ _ _ _ _ rfl (by decide)
theorem rslvCfg (p : Nat) : Statement (.rslvCfg p) := of_packWord _ _ _ _ _ rfl (by decide)
theorem rslvMux (p : Nat) : Statement (.rslvMux p) := of_packWord _ _ _ _ _ rfl (by decide)

end Sys2Proof.Laws.FieldLayout
end

