-- ==== Sys2Proof/Laws/Resolver.lean ====
section
/-! SUPPORT. The resolver on in-range pins (40_resolver.md R101 to R105). -/

namespace Sys2Proof.Machine

@[simp] theorem bankOf_val (p : Nat) (h : p ≤ 63) : (bankOf p).val = p / 32 := by
  simp only [bankOf, Fin.val_ofNat]; omega

@[simp] theorem cfgIndex_val (p : Nat) : (cfgIndex p).val = p % 32 / 4 := by
  simp only [cfgIndex, Fin.val_ofNat]; omega

@[simp] theorem muxIndex_val (p : Nat) : (muxIndex p).val = p % 32 / 8 := by
  simp only [muxIndex, Fin.val_ofNat]; omega

/-- `muxShift(p) = 4 * (p mod 8)` (R103). -/
theorem muxShift_eq (p : Nat) : muxShift p = 4 * (p % 8) := by
  simp only [muxShift, muxByteShift, muxNibShift]; omega

theorem cfgShift_fits (p : Nat) : cfgShift p + 8 ≤ 32 := by simp only [cfgShift]; omega

theorem muxShift_fits (p : Nat) : muxShift p + 4 ≤ 32 := by rw [muxShift_eq]; omega

/-- Two pins with one configuration register have disjoint bytes in it (R104). -/
theorem cfgShift_disjoint (p q : Nat) (hp : p ≤ 63) (hq : q ≤ 63) (hne : q ≠ p) (hb : bankOf q = bankOf p)
    (hk : cfgIndex q = cfgIndex p) : cfgShift p + 8 ≤ cfgShift q ∨ cfgShift q + 8 ≤ cfgShift p := by
  have h1 := congrArg Fin.val hb
  have h2 := congrArg Fin.val hk
  rw [bankOf_val p hp, bankOf_val q hq] at h1
  rw [cfgIndex_val, cfgIndex_val] at h2
  simp only [cfgShift]; omega

/-- Two pins with one multiplexer register have disjoint nibbles in it (R104). -/
theorem muxShift_disjoint (p q : Nat) (hp : p ≤ 63) (hq : q ≤ 63) (hne : q ≠ p) (hb : bankOf q = bankOf p)
    (hk : muxIndex q = muxIndex p) : muxShift p + 4 ≤ muxShift q ∨ muxShift q + 4 ≤ muxShift p := by
  have h1 := congrArg Fin.val hb
  have h2 := congrArg Fin.val hk
  rw [bankOf_val p hp, bankOf_val q hq] at h1
  rw [muxIndex_val, muxIndex_val] at h2
  rw [muxShift_eq, muxShift_eq]; omega

/-- Two pins of one bank have different in-bank bits (R104). -/
theorem bit_ne (p q : Nat) (hp : p ≤ 63) (hq : q ≤ 63) (hne : q ≠ p) (hb : bankOf q = bankOf p) :
    q % 32 ≠ p % 32 := by
  have h1 := congrArg Fin.val hb
  rw [bankOf_val p hp, bankOf_val q hq] at h1
  omega

end Sys2Proof.Machine
end

