-- ==== Sys2Proof/Laws/Pins.lean ====
section
/-! SUPPORT. What a field write and a set or clear write leave of the pins that share the register (00_scope.md R12,
10_state.md R33, R35, 40_resolver.md R104, R107, R108). -/

namespace Sys2Proof.Machine

/-- The byte of pin p after a write of it. -/
theorem cfgOf_insField (w : Word) (p : Nat) (v : Byte) : cfgOf p (insField w (cfgShift p) 8 (v.setWidth 32)) = v := by
  have hs := cfgShift_fits p
  apply BitVec.eq_of_getLsbD_eq
  intro i hi
  rw [cfgOf, getLsbD_extField, getLsbD_insField _ _ _ _ _ (by omega), if_pos (by omega), Nat.add_sub_cancel_left,
    BitVec.getLsbD_setWidth]
  have : i < 32 := by omega
  simp [hi, this]

/-- The nibble of pin p after a write of it. -/
theorem muxOf_insField (w : Word) (p : Nat) (v : Nibble) :
    muxOf p (insField w (muxShift p) 4 (v.setWidth 32)) = v := by
  have hs := muxShift_fits p
  apply BitVec.eq_of_getLsbD_eq
  intro i hi
  rw [muxOf, getLsbD_extField, getLsbD_insField _ _ _ _ _ (by omega), if_pos (by omega), Nat.add_sub_cancel_left,
    BitVec.getLsbD_setWidth]
  have : i < 32 := by omega
  simp [hi, this]

/-- One bit of a register after a set through its port (R33, R35). -/
theorem getLsbD_or_maskOf (w : Word) (p q : Nat) :
    (w ||| maskOf p).getLsbD (q % 32) = if q % 32 = p % 32 then true else w.getLsbD (q % 32) := by
  rw [BitVec.getLsbD_or, getLsbD_maskOf _ _ (Nat.mod_lt _ (by omega))]
  by_cases h : q % 32 = p % 32 <;> simp [h]

/-- One bit of a register after a clear through its port (R33, R35). -/
theorem getLsbD_and_not_maskOf (w : Word) (p q : Nat) :
    (w &&& ~~~maskOf p).getLsbD (q % 32) = if q % 32 = p % 32 then false else w.getLsbD (q % 32) := by
  have hq : q % 32 < 32 := Nat.mod_lt _ (by omega)
  rw [BitVec.getLsbD_and, BitVec.getLsbD_not, getLsbD_maskOf _ _ hq]
  by_cases h : q % 32 = p % 32 <;> simp [h, hq]

end Sys2Proof.Machine
end

