-- ==== Sys2Proof/Laws/Step.lean ====
section
/-! SUPPORT. Everything a meaning, a micro-operation and an issue can answer, and how a machine left alone runs. -/

namespace Sys2Proof.Machine

/-- Every meaning is the end of issue with the command's own checks and sequence (R181). -/
theorem exec_eq (i : Instr) (s : State) :
    exec i s = conclude (commandFault s.params i) (commandSeq s.params i) s := by
  cases i <;> rfl

theorem exec_accepts (i : Instr) (s : State) (h : commandFault s.params i = none) :
    exec i s = .next (s.accept (commandSeq s.params i)) := by
  rw [exec_eq, h]; rfl

theorem exec_faults (i : Instr) (s : State) (c : FaultCode) (h : commandFault s.params i = some c) :
    exec i s = .next (s.enterFault c) := by
  rw [exec_eq, h]; rfl

/-- Issue always answers a next state: fault entry or acceptance, on the state whose `CMD` holds the word (R181). -/
theorem issue_cases (w : Word) (s : State) :
    (∃ c, wordFault s.params w = some c ∧ issue w s = .next (State.enterFault c { s with cmd := w }))
      ∨ ∃ i, decode w = .cmd i ∧ commandFault s.params i = none
          ∧ issue w s = .next (State.accept (commandSeq s.params i) { s with cmd := w }) := by
  cases hd : decode w with
  | cmd i =>
    cases hf : commandFault s.params i with
    | none =>
      refine .inr ⟨i, rfl, hf, ?_⟩
      simp only [issue, hd]
      exact exec_accepts i { s with cmd := w } hf
    | some c =>
      refine .inl ⟨c, by simp only [wordFault, hd, hf], ?_⟩
      simp only [issue, hd]
      exact exec_faults i { s with cmd := w } c hf
  | invalidMode p =>
    cases hf : checkInvalidMode p with
    | none =>
      simp only [checkInvalidMode, checkRange] at hf
      split at hf <;> cases hf
    | some c =>
      exact .inl ⟨c, by simp only [wordFault, hd, hf], by simp only [issue, hd, hf, conclude]⟩
  | illegal => exact .inl ⟨.illegalCmd, by simp only [wordFault, hd], by simp only [issue, hd]⟩

/-- A `WR` is the bank's write of the location it names; `P` is the state's parameters, spelled as the goal spells them. -/
theorem perform_wr (P : Params) (s : State) (e : s.params = P) (h : ParamsOk P) (l : BankLoc) (v : Word) :
    perform (.wr (regOffset P l) v) s = bankWrite l v s := by
  subst e; exact memWrite_regOffset s h l v

/-- A `WRM` writes the field merged into `LAT`. -/
theorem perform_wrm (P : Params) (s : State) (e : s.params = P) (h : ParamsOk P) (l : BankLoc) (pos n : Nat) (v : Word) :
    perform (.wrm (regOffset P l) pos n v) s = bankWrite l (insField s.lat pos n v) s := by
  subst e; exact memWrite_regOffset s h l _

/-- An `RD` loads `LAT` with the word the location gives. -/
theorem perform_rd (P : Params) (s s' : State) (w : Word) (e : s.params = P) (h : ParamsOk P) (l : BankLoc)
    (hr : bankRead l s = .next (w, s')) : perform (.rd (regOffset P l)) s = .next (s'.withLat w) := by
  subst e; simp only [perform, memRead_regOffset s h, hr]

/-- Everything a micro-operation can answer (R70): a write exchanges the bank, a read loads `LAT` and takes at most one
draw, `FINISH` writes the responses; or the access is refused. -/
theorem perform_cases (op : MicroOp) (s s' : State) (e : perform op s = .next s') :
    (∃ B, s' = s.withBank B) ∨ (∃ w, s' = s.withLat w ∨ s' = s.afterDraw.withLat w)
      ∨ ∃ r0 r1, op = .finish r0 r1 ∧ s' = s.finish (r0.eval s.lat) r1 := by
  cases op with
  | wr off v =>
    rcases memWrite_cases (busAddr s.params off) v s with ⟨B, h⟩ | ⟨r, h⟩ <;> rw [perform, h] at e <;> cases e
    exact .inl ⟨B, rfl⟩
  | wrm off pos n v =>
    rcases memWrite_cases (busAddr s.params off) (insField s.lat pos n v) s with ⟨B, h⟩ | ⟨r, h⟩ <;>
      rw [perform, h] at e <;> cases e
    exact .inl ⟨B, rfl⟩
  | rd off =>
    rcases memRead_cases (busAddr s.params off) s with ⟨w, h | h⟩ | ⟨r, h⟩ <;> simp only [perform, h] at e <;> cases e
    · exact .inr (.inl ⟨w, .inl rfl⟩)
    · exact .inr (.inl ⟨w, .inr rfl⟩)
  | finish r0 r1 => cases e; exact .inr (.inr ⟨r0, r1, rfl, rfl⟩)

theorem step_alone_busy (s : State) (ha : Alone s) (hb : s.st = .busy) : step s = microStep s := by
  simp only [step, nextTurn, ha, engineTurn, hb]

theorem run_zero (s : State) : run 0 s = .next s := rfl

/-- One more step of a run that goes on. -/
theorem run_succ (n : Nat) (s s' : State) (h : step s = .next s') : run (n + 1) s = run n s' := by
  have hc : Sys2Proof.core.step s = .next s' := h
  simp only [run, Host.Core.run, hc]
  rfl

/-- One engine step of a machine left alone (R70): the head of `SEQ` is performed and the run goes on. -/
theorem run_op (n : Nat) (s s' : State) (op : MicroOp) (rest : List MicroOp) (ha : Alone s) (hb : s.st = .busy)
    (hs : s.seq = op :: rest) (h : perform op (s.withSeq rest) = .next s') : run (n + 1) s = run n s' := by
  refine run_succ n s s' ?_
  rw [step_alone_busy s ha hb, microStep, hs]
  exact h

/-- Whose turn a step is: the engine's, when the agenda is empty or its first turn must wait, else the first turn's. -/
theorem step_cases (s : State) :
    (step s = engineTurn s ∧ (s.agenda = [] ∨ ∃ t rest, s.agenda = t :: rest ∧ s.waits t = true))
      ∨ ∃ t rest, s.agenda = t :: rest ∧ s.waits t = false ∧ step s = takeTurn t { s with agenda := rest } := by
  cases ha : s.agenda with
  | nil => exact .inl ⟨by simp only [step, nextTurn, ha], .inl rfl⟩
  | cons t rest =>
    cases hw : s.waits t with
    | true => exact .inl ⟨by simp only [step, nextTurn, ha, hw, if_true], .inr ⟨t, rest, rfl, hw⟩⟩
    | false =>
      exact .inr ⟨t, rest, rfl, hw, by simp only [step, nextTurn, ha, hw, Bool.false_eq_true, if_false]⟩

/-- The first turn of the agenda is taken unless it must wait. -/
theorem step_takes (s : State) (t : Turn) (rest : List Turn) (ha : s.agenda = t :: rest) (hw : s.waits t = false) :
    step s = takeTurn t { s with agenda := rest } := by
  simp only [step, nextTurn, ha, hw, Bool.false_eq_true, if_false]

/-- A turn waits exactly when a write of the context that makes it is held (20_memory.md R73). -/
theorem waits_iff (s : State) (t : Turn) : s.waits t = true ↔ ∃ h ∈ s.held, t.madeBy = some (.host h.ctx) := by
  cases hm : t.madeBy with
  | none => simp [State.waits, hm]
  | some who =>
    cases who with
    | host ctx =>
      simp only [State.waits, hm, State.stalled, List.any_eq_true, beq_iff_eq, Option.some.injEq, Agent.host.injEq]
      exact exists_congr fun h => and_congr_right fun _ => eq_comm
    | environment => simp [State.waits, hm]

/-- An agent with no write held never waits. -/
theorem waits_of_free (s : State) (t : Turn) (who : Agent) (hm : t.madeBy = some who) (h : Free s who) :
    s.waits t = false :=
  Bool.eq_false_iff.mpr fun hw =>
    have ⟨g, hg, e⟩ := (waits_iff s t).1 hw
    h g hg (Option.some.inj (hm.symm.trans e))

/-- With nothing held no turn waits (R30). -/
theorem waits_of_held_nil (s : State) (t : Turn) (hh : s.held = []) : s.waits t = false :=
  Bool.eq_false_iff.mpr fun hw => by simpa [hh] using (waits_iff s t).1 hw

/-- Whatever the engine's turn does, the agenda and the words the others have read stay (R73). -/
theorem engineTurn_keeps_outside (s s' : State) (e : engineTurn s = .next s') :
    s'.agenda = s.agenda ∧ s'.hostData = s.hostData ∧ s'.busData = s.busData := by
  have of_issue : ∀ (w : Word) (u : State), issue w u = .next s' →
      s'.agenda = u.agenda ∧ s'.hostData = u.hostData ∧ s'.busData = u.busData := by
    intro w u h
    rcases issue_cases w u with ⟨_, _, e⟩ | ⟨_, _, _, e⟩ <;> rw [e] at h <;> cases h <;> exact ⟨rfl, rfl, rfl⟩
  unfold engineTurn microStep at e
  split at e
  · split at e
    · rename_i op ops _
      rcases perform_cases op _ s' e with ⟨B, rfl⟩ | ⟨w, rfl | rfl⟩ | ⟨_, _, _, rfl⟩ <;> exact ⟨rfl, rfl, rfl⟩
    · cases e
  · split at e
    · rename_i h hs _
      exact of_issue h.word { s with held := hs } e
    · cases e; exact ⟨rfl, rfl, rfl⟩
  · cases e; exact ⟨rfl, rfl, rfl⟩

/-- Everything an outside access can answer (R30, R39): the issue of a word, a state that differs in the held writes, the
words read, the bank (by a bus write) or the draws alone, or a refusal. -/
theorem access_cases (t : Turn) (s s' : State) (e : takeTurn t s = .next s') (hr : ∀ d, t ≠ .engineReset d)
    (hp : ∀ d, t ≠ .platformReset d) (he : t ≠ .engine) :
    (∃ ctx a n w, t = .hostWrite ctx a n w ∧ ((s.st = .idle ∧ s.held = [] ∧ issue w s = .next s')
        ∨ (s.st ≠ .fault ∧ s' = holdWrite ctx w s) ∨ s' = s))
      ∨ (∃ w, s' = { s with hostData := some w })
      ∨ (∃ who a n v B, t = .busWrite who a n v ∧ memWrite a v s = .next s' ∧ s' = s.withBank B)
      ∨ ∃ w, s' = { s with busData := some w } ∨ s' = { s.afterDraw with busData := some w } := by
  cases t with
  | engine => exact absurd rfl he
  | hostRead ctx a n =>
    simp only [takeTurn, hostReadTurn] at e
    split at e <;> cases e
    exact .inr (.inl ⟨_, rfl⟩)
  | hostWrite ctx a n w =>
    refine .inl ⟨ctx, a, n, w, rfl, ?_⟩
    simp only [takeTurn, hostWriteTurn, writeCmd] at e
    split at e
    · split at e
      · rename_i hi
        split at e
        · rename_i hh; exact .inl ⟨hi, hh, e⟩
        · cases e; exact .inr (.inl ⟨by simp [hi], rfl⟩)
      · rename_i hb; cases e; exact .inr (.inl ⟨by simp [hb], rfl⟩)
      · cases e; exact .inr (.inr rfl)
    all_goals first | (cases e; exact .inr (.inr rfl)) | cases e
  | busRead who a n =>
    simp only [takeTurn, busReadTurn] at e
    split at e
    · rcases memRead_cases a s with ⟨w, h | h⟩ | ⟨r, h⟩ <;> simp only [h] at e <;> cases e
      · exact .inr (.inr (.inr ⟨w, .inl rfl⟩))
      · exact .inr (.inr (.inr ⟨w, .inr rfl⟩))
    · cases e
  | busWrite who a n v =>
    simp only [takeTurn, busWriteTurn] at e
    split at e
    · rcases memWrite_cases a v s with ⟨B, h⟩ | ⟨r, h⟩ <;> rw [h] at e <;> cases e
      exact .inr (.inr (.inl ⟨who, a, n, v, B, rfl, h, rfl⟩))
    · cases e
  | engineReset d => exact absurd rfl (hr d)
  | platformReset d => exact absurd rfl (hp d)

/-- Taking a turn leaves the rest of the agenda. -/
theorem takeTurn_keeps_agenda (t : Turn) (s s' : State) (e : takeTurn t s = .next s') : s'.agenda = s.agenda := by
  by_cases he : t = .engine
  · subst he; exact (engineTurn_keeps_outside s s' e).1
  by_cases hr : ∃ d, t = .engineReset d
  · obtain ⟨d, rfl⟩ := hr; cases e; rfl
  by_cases hp : ∃ d, t = .platformReset d
  · obtain ⟨d, rfl⟩ := hp; cases e; rfl
  rcases access_cases t s s' e (fun d h => hr ⟨d, h⟩) (fun d h => hp ⟨d, h⟩) he with
    ⟨_, _, _, w, _, ⟨_, _, h⟩ | ⟨_, rfl⟩ | rfl⟩ | ⟨_, rfl⟩ | ⟨_, _, _, _, _, _, _, rfl⟩ | ⟨_, rfl | rfl⟩ <;> try rfl
  rcases issue_cases w s with ⟨_, _, i⟩ | ⟨_, _, _, i⟩ <;> rw [i] at h <;> cases h <;> rfl

/-- A step takes at most the first turn off the agenda. -/
theorem step_agenda (s s' : State) (e : step s = .next s') : s'.agenda = s.agenda ∨ ∃ t, s.agenda = t :: s'.agenda := by
  rcases step_cases s with ⟨h, _⟩ | ⟨t, rest, ha, _, h⟩ <;> rw [h] at e
  · exact .inl (engineTurn_keeps_outside s s' e).1
  · exact .inr ⟨t, by rw [ha, takeTurn_keeps_agenda _ _ _ e]⟩

/-- A word a host context writes to `CMD` while IDLE with nothing held is issued in that step (R30, R181). -/
theorem step_hostWrite_cmd (s : State) (ctx : Nat) (w : Word) (rest : List Turn) (hi : s.st = .idle) (hh : s.held = [])
    (ha : s.agenda = .hostWrite ctx s.params.engineBase 4 w :: rest) : step s = issue w { s with agenda := rest } := by
  rw [step_takes s _ rest ha (waits_of_held_nil s _ hh)]
  simp [takeTurn, hostWriteTurn, hostAccess?, hostReg?, writeCmd, hi, hh]

end Sys2Proof.Machine
end

