-- ==== Sys2Proof/Tests/Slice0.lean ====
section
/-! SUPPORT. Tests, each with the rule or vector of spec/ its expected result comes from, and one witness for every
obligation that has hypotheses. -/

namespace Sys2Proof.Tests

open Sys2Proof.Machine

/-! ## Helpers -/

/-- What a part of the next state is; none where there is no next state. -/
def seen {α : Type} (o : Host.Outcome State Fault Refusal) (f : State → α) : Option α :=
  match o with
  | .next s => some (f s)
  | .fault _ => none
  | .refused _ => none

/-- A bank of zeros. -/
def zeroBank : Bank where
  dir := Vector.replicate 2 0
  out := Vector.replicate 2 0
  pincfg := Vector.replicate 2 (Vector.replicate 8 0)
  pmux := Vector.replicate 2 (Vector.replicate 4 0)

/-- The start state of 95_test_vectors.md 2.3 in every register of the bank. -/
def startBank : Bank where
  dir := Vector.replicate 2 0x5555AAAA
  out := Vector.replicate 2 0x0F0F00F0
  pincfg := Vector.replicate 2 (Vector.replicate 8 0x47474747)
  pmux := Vector.replicate 2 (Vector.replicate 4 0x76543210)

/-- Pin 13 an output driven low, every other register 0 (95_test_vectors.md 2.2). -/
def outputBank : Bank :=
  { zeroBank with
    dir := #v[0x2000, 0]
    pincfg := #v[#v[0, 0, 0, 0x00000200, 0, 0, 0, 0], Vector.replicate 8 0] }

/-- The reset machine with a bank and with draws supplied; every supplied draw is all ones, so a test sees where one shows. -/
def machine (B : Bank) : State := { State.reset with bank := B, draws := List.replicate 4 0xFFFFFFFF }

/-- A machine in BUSY with a sequence left and a latch. -/
def busyMachine (B : Bank) (lat : Word) (ops : List MicroOp) : State :=
  { machine B with st := .busy, lat := lat, seq := ops }

/-- The package of 95_test_vectors.md 2.5 that lacks configuration register 0xDC and multiplexer register 0xBC. -/
def smallPackage : Params :=
  { Params.reference with
    cfgImpl := #v[Vector.replicate 8 true, #v[true, true, true, true, true, true, true, false]]
    muxImpl := #v[Vector.replicate 4 true, #v[true, true, true, false]] }

/-- What one step leaves when the host writes a word to `CMD`: `STATUS` and `SEQ`. -/
def issued (w : Nat) : Option (Word × List MicroOp) :=
  seen (step ((machine zeroBank).withFetchWord 32 w)) fun s => (statusWord s, s.seq)

/-! ## Well-formedness: the one check of WellFormed.lean refuses pin 256 in every command -/

theorem test_wellformed_refuses_pin_256 (s : Nibble) (l : Bool) (k : Kind) :
    ∀ i ∈ [Instr.cfgOut 256, .cfgIn 256, .cfgPd 256, .cfgPu 256, .cfgPf 256 s, .cfgPfa 256 s, .cfgAn 256, .setlvl 256 l,
      .getlvl 256, .getcfg 256, .getmux 256, .rslvBit 256 k, .rslvCfg 256, .rslvMux 256], ¬ i.WellFormed := by
  simp [Instr.WellFormed, Instr.pin]

theorem test_wellformed_takes_pin_255 : (Instr.cfgOut 255).WellFormed := by decide

/-! ## Decoding: one word written out for every constructor (30_encoding.md R86 to R92, 95_test_vectors.md) -/

theorem test_decode_cfgOut : decode 0x00000281 = .cmd (.cfgOut 40) := by decide
theorem test_decode_cfgIn : decode 0x000013E1 = .cmd (.cfgIn 62) := by decide
theorem test_decode_cfgPd : decode 0x000020D1 = .cmd (.cfgPd 13) := by decide
theorem test_decode_cfgPu : decode 0x00003051 = .cmd (.cfgPu 5) := by decide
theorem test_decode_cfgPf : decode 0x00064071 = .cmd (.cfgPf 7 6) := by decide
theorem test_decode_cfgPfa : decode 0x000953E1 = .cmd (.cfgPfa 62 9) := by decide
theorem test_decode_cfgAn : decode 0x00006021 = .cmd (.cfgAn 2) := by decide
theorem test_decode_setlvl_high : decode 0x00008282 = .cmd (.setlvl 40 true) := by decide
theorem test_decode_setlvl_low : decode 0x00000202 = .cmd (.setlvl 32 false) := by decide
theorem test_decode_getlvl : decode 0x000001F3 = .cmd (.getlvl 31) := by decide
theorem test_decode_getcfg : decode 0x000003E4 = .cmd (.getcfg 62) := by decide
theorem test_decode_getmux : decode 0x000003F5 = .cmd (.getmux 63) := by decide
theorem test_decode_rslvBit : decode 0x000053F6 = .cmd (.rslvBit 63 .outset) := by decide
theorem test_decode_rslvCfg : decode 0x000000F7 = .cmd (.rslvCfg 15) := by decide
theorem test_decode_rslvMux : decode 0x000003F8 = .cmd (.rslvMux 63) := by decide
/-- `OP = 2`, `PIN = 0xA5`, `LVL = 1`: 0010, 1010 0101 at bit 4, 1 at bit 15, bit by bit from R86. -/
theorem test_decode_bits_of_setlvl :
    decode (0b0000_0000_0000_0000_1000_1010_0101_0010 : BitVec 32) = .cmd (.setlvl 0xA5 true) := by decide
theorem test_decode_table_word : decodeTableWord 32 0x000940D1 = some (.cfgPf 13 9) := by decide
/-- The words 95_test_vectors.md 2.2, 2.3 and 2.5 call illegal. -/
theorem test_decode_illegal :
    ∀ w ∈ [0x00000000, 0x00000009, 0x00100001, 0x00107401, 0x00007056, 0x00008053, 0x00001052, 0x00030051, 0x00016051],
      decode (BitVec.ofNat 32 w) = .illegal := by decide
theorem test_decode_invalid_mode : decode 0x00007051 = .invalidMode 5 := by decide
theorem test_decodeTableWord_refuses : decodeTableWord 32 0x00007051 = none ∧ decodeTableWord 32 0x00000000 = none := by
  decide
theorem test_encode_kind_sweep : [Kind.dir, .dirclr, .dirset, .out, .outclr, .outset, .input].map
    (fun k => encode (.rslvBit 63 k))
      = [0x000003F6, 0x000013F6, 0x000023F6, 0x000033F6, 0x000043F6, 0x000053F6, 0x000063F6] := by decide
/-- `setlo PB8` (R95, R96). -/
theorem test_assemble_pseudo : (AsmLine.setlo (.pb 8)).assemble? = some 0x00000282
    ∧ (AsmLine.command (.getlvl 256)).assemble? = none := by decide

/-! ## Issue: the accesses of each command (95_test_vectors.md Part 1, 2.1 to 2.4) -/

theorem test_issue_cfgOut : issued 0x000000D1
    = some (1, [.wr 0x08 0x2000, .rd 0x4C, .wrm 0x4C 8 8 0x02, .finish (.const 0) 0]) := by decide
theorem test_issue_cfgIn : issued 0x000013E1
    = some (1, [.wr 0x84 0x40000000, .rd 0xDC, .wrm 0xDC 16 8 0x02, .finish (.const 0) 0]) := by decide
theorem test_issue_cfgPd : issued 0x000020D1
    = some (1, [.wr 0x04 0x2000, .wr 0x14 0x2000, .rd 0x4C, .wrm 0x4C 8 8 0x06, .finish (.const 0) 0]) := by decide
theorem test_issue_cfgPu : issued 0x00003051
    = some (1, [.wr 0x04 0x20, .wr 0x18 0x20, .rd 0x44, .wrm 0x44 8 8 0x06, .finish (.const 0) 0]) := by decide
theorem test_issue_cfgPf : issued 0x00064071
    = some (1, [.rd 0x30, .wrm 0x30 28 4 6, .rd 0x44, .wrm 0x44 24 8 0x43, .finish (.const 0) 0]) := by decide
theorem test_issue_cfgPfa : issued 0x000953E1
    = some (1, [.rd 0xBC, .wrm 0xBC 24 4 9, .rd 0xDC, .wrm 0xDC 16 8 0x41, .finish (.const 0) 0]) := by decide
theorem test_issue_cfgAn : issued 0x00006021
    = some (1, [.rd 0x30, .wrm 0x30 8 4 1, .rd 0x40, .wrm 0x40 16 8 0x41, .finish (.const 0) 0]) := by decide
theorem test_issue_setlvl : issued 0x00008282 = some (1, [.wr 0x98 0x100, .finish (.const 0) 0])
    ∧ issued 0x00000202 = some (1, [.wr 0x94 0x1, .finish (.const 0) 0]) := by decide
theorem test_issue_getlvl : issued 0x000003F3 = some (1, [.rd 0xA0, .finish (.latField 31 1) 0]) := by decide
theorem test_issue_getcfg : issued 0x00000074 = some (1, [.rd 0x44, .finish (.latField 24 8) 0]) := by decide
theorem test_issue_getmux : issued 0x00000085 = some (1, [.rd 0x34, .finish (.latField 0 4) 0]) := by decide
theorem test_issue_rslvBit : issued 0x000063F6 = some (1, [.finish (.const 0x80000000) 0xA0])
    ∧ issued 0x00000206 = some (1, [.finish (.const 1) 0x80]) := by decide
theorem test_issue_rslvCfg : issued 0x00000387 = some (1, [.finish (.const 0) 0xD8])
    ∧ issued 0x000003F7 = some (1, [.finish (.const 24) 0xDC]) := by decide
theorem test_issue_rslvMux : issued 0x000003C8 = some (1, [.finish (.const 0x010) 0xBC])
    ∧ issued 0x000001F8 = some (1, [.finish (.const 0x418) 0x3C]) := by decide

/-! ## Faults (95_test_vectors.md 2.5): `STATUS` after, and no sequence -/

theorem test_illegal_words_fault : issued 0x00000000 = some (0x42, []) ∧ issued 0x00107401 = some (0x42, []) := by decide
theorem test_pin_range_faults : issued 0x00008642 = some (0x12, []) ∧ issued 0x00007401 = some (0x12, []) := by decide
theorem test_invalid_mode_faults : issued 0x00007051 = some (0x32, []) := by decide
theorem test_absent_registers_fault :
    ∀ i ∈ [Instr.cfgOut 62, .getcfg 62, .rslvCfg 62, .cfgPf 62 1, .getmux 62, .rslvMux 62],
      seen (exec i { machine zeroBank with params := smallPackage }) (fun s => (statusWord s, s.bank))
        = some (0x22, zeroBank) := by decide
theorem test_single_bit_commands_need_no_package :
    ∀ i ∈ [Instr.setlvl 62 true, .getlvl 62, .rslvBit 62 .input],
      seen (exec i { machine zeroBank with params := smallPackage }) statusWord = some 1 := by decide

/-! ## Micro-operations, one step each -/

/-- The merge of `cfg.out 13` (95_test_vectors.md 2.3): the draws in the latch leave no trace in the register. -/
theorem test_wrm_pincfg : seen (step (busyMachine startBank 0xFFFFFFFF [.wrm 0x4C 8 8 0x02, .finish (.const 0) 0]))
    (fun s => (s.bank.pincfg[0][3], s.bank.pincfg[0][2])) = some (0x47470247, 0x47474747) := by decide
/-- The merge of `cfg.pf 62, 9` (2.3). -/
theorem test_wrm_pmux : seen (step (busyMachine startBank 0x76543210 [.wrm 0xBC 24 4 9, .finish (.const 0) 0]))
    (fun s => (s.bank.pmux[1][3], s.bank.pmux[0][3])) = some (0x79543210, 0x76543210) := by decide
/-- `DIRCLR` and `OUTSET` of `cfg.pu 62` (2.3). -/
theorem test_wr_dirclr : seen (step (busyMachine startBank 0 [.wr 0x84 0x40000000, .finish (.const 0) 0]))
    (fun s => (s.bank.dir[1], s.bank.dir[0])) = some (0x1555AAAA, 0x5555AAAA) := by decide
theorem test_wr_outset : seen (step (busyMachine startBank 0 [.wr 0x98 0x40000000, .finish (.const 0) 0]))
    (fun s => (s.bank.out[1], s.bank.out[0])) = some (0x4F0F00F0, 0x0F0F00F0) := by decide
/-- `setlvl 4, 0` (2.2). -/
theorem test_wr_outclr : seen (step (busyMachine startBank 0 [.wr 0x14 0x10, .finish (.const 0) 0]))
    (fun s => s.bank.out[0]) = some 0x0F0F00E0 := by decide
/-- A read of `IN[0]` with pin 13 read back low and every other bit the draw (2.2, 10_state.md R36). -/
theorem test_rd_input :
    seen (step (busyMachine outputBank 0 [.rd 0x20, .finish (.latField 13 1) 0])) (fun s => s.lat)
      = some 0xFFFFDFFF := by decide +kernel
/-- A configuration read: named bits as stored, reserved bits the draw (10_state.md R37). -/
theorem test_rd_pincfg : seen (step (busyMachine zeroBank 0 [.rd 0x4C, .finish (.latField 8 8) 0])) (fun s => s.lat)
    = some 0xB8B8B8B8 := by decide
/-- `getmux 13` and `getmux 15` on 0x76543210 (2.4): the field of the latch. -/
theorem test_finish_field : seen (step (busyMachine zeroBank 0x76543210 [.finish (.latField 20 4) 0]))
    (fun s => (s.rsp0, statusWord s)) = some (5, 0) := by decide

/-! ## Host port, other agents, reset (10_state.md R29, R30, R39; 70_reset_and_hazards.md R210) -/

theorem test_write_is_held_while_busy :
    seen (step { busyMachine zeroBank 0 [.finish (.const 0) 0] with agenda := [.hostWrite 2 0 4 0x00000281] })
      (fun s => (s.held, s.seq.length)) = some ([⟨2, 0x00000281⟩], 1) := by decide
/-- R73: while its write is held, context 2 reads nothing: the engine moves and the read stays. Context 1 and the
environment go on. -/
theorem test_stalled_context_waits :
    let s := fun t => { busyMachine zeroBank 0 [.finish (.const 5) 0] with held := [⟨2, 0x00000281⟩], agenda := [t] }
    seen (step (s (.hostRead 2 4 4))) (fun s => (s.hostData, s.agenda.length, s.st)) = some (none, 1, .idle)
      ∧ seen (step (s (.busWrite (.host 2) 0x30 4 1))) (fun s => (s.bank.pmux[0][0], s.agenda.length)) = some (0, 1)
      ∧ seen (step (s (.hostRead 1 4 4))) (fun s => (s.hostData, s.agenda.length, s.st)) = some (some 1, 0, .busy)
      ∧ seen (step (s (.busWrite .environment 0x30 4 1))) (fun s => (s.bank.pmux[0][0], s.agenda.length)) = some (1, 0) := by
  decide
theorem test_write_vanishes_in_fault :
    seen (step { machine zeroBank with st := .fault, errcode := 1, agenda := [.hostWrite 0 0 4 0x00008032] })
      (fun s => (s.held, s.st, s.cmd)) = some ([], .fault, 0) := by decide
/-- In IDLE behind a held write the write of another context waits; in FAULT the engine's turn discards a held one (log 5). -/
theorem test_held_writes_queue_and_vanish :
    seen (step { machine zeroBank with held := [⟨0, 7⟩], agenda := [.hostWrite 1 0 4 0x00000281] })
        (fun s => (s.held, s.st)) = some ([⟨0, 7⟩, ⟨1, 0x00000281⟩], .idle)
      ∧ seen (step { machine zeroBank with st := .fault, errcode := 1, held := [⟨0, 7⟩, ⟨1, 8⟩] })
        (fun s => (s.held, s.st, s.cmd)) = some ([⟨1, 8⟩], .fault, 0) := by decide
theorem test_status_read :
    seen (step { machine zeroBank with st := .fault, errcode := 4, agenda := [.hostRead 0 4 4] }) (fun s => s.hostData)
      = some (some 0x42) := by decide
/-- The environment's write of 95_test_vectors.md 2.6. -/
theorem test_bus_write : seen (step { machine zeroBank with agenda := [.busWrite .environment 0x30 4 0x00000030] })
    (fun s => s.bank.pmux[0][0]) = some 0x00000030 := by decide
/-- A write at the plain `OUT[0]` replaces all 32 bits (10_state.md R34), a read of it records the word. -/
theorem test_plain_out : seen (step { machine startBank with agenda := [.busWrite (.host 0) 0x10 4 0x00000030] })
      (fun s => (s.bank.out[0], s.bank.out[1])) = some (0x00000030, 0x0F0F00F0)
    ∧ seen (step { machine startBank with agenda := [.busRead (.host 0) 0x10 4] }) (fun s => (s.busData, s.bank))
      = some (some 0x0F0F00F0, startBank) := by decide
theorem test_port_read_is_refused : seen (step { machine zeroBank with agenda := [.busRead .environment 0x18 4] }) (fun _ => ())
    = none := by decide
theorem test_engine_reset :
    seen (step { machine startBank with st := .fault, errcode := 1, cmd := 0x401, agenda := [.engineReset true] })
      (fun s => (statusWord s, s.cmd, s.bank)) = some (0, 0, startBank) := by decide
theorem test_wordByte_is_little_endian : [0, 1, 2, 3].map (wordByte 0x11223344) = [0x44, 0x33, 0x22, 0x11] := by decide

/-! ## Witnesses: for every obligation with hypotheses, a state and operands that meet them all -/

theorem referenceOk : ParamsOk Params.reference := by decide

/-- The machine is sound in IDLE with any canonical bank. -/
theorem machineOk (B : Bank) (h : BankWf Params.reference B) : StateOk (machine B) :=
  ⟨referenceOk, h, ⟨rfl, rfl⟩, List.nodup_nil⟩

/-- `cfg.pf 7, 6` accepted and two micro-operations from its end. -/
def midCommand : State :=
  { busyMachine zeroBank 0 [.wrm 0x44 24 8 0x43, .finish (.const 0) 0] with cmd := 0x00064071, agenda := [] }

theorem midCommandOk : StateOk midCommand :=
  ⟨referenceOk, by decide, ⟨rfl, by decide, .cfgPf 7 6, by decide, by decide, by decide⟩, by decide⟩

theorem test_witness_DecodeOfEncodeIsTheCommand : (Instr.cfgPf 0 15).WellFormed ∧ (Instr.rslvMux 255).WellFormed := by
  decide
theorem test_witness_EncodeOfDecodeIsTheWord : decode 0x000F4FF1 = .cmd (.cfgPf 255 15) := by decide
theorem test_witness_WordsDecodeToTheRowTheyMatch :
    decode 0x000F4FF1 = .cmd (.cfgPf 255 15) ∧ (0x00000006, 0xFFFF800F) ∈ tableRows
      ∧ MatchesRow 0x00006FF6 (0x00000006, 0xFFFF800F) ∧ ¬ (opField 0x00006FF6 = 6 ∧ modeField 0x00006FF6 = 7) := by decide
/-- Each clause of the first part at the edge of its range, and the second part's premises. -/
theorem test_witness_IllegalWordsAreTheReservedOnes :
    opField 0x00000000 = 0 ∧ 9 ≤ (opField 0x00000009).toNat ∧ rsvField 0x00100001 ≠ 0
      ∧ (¬ unusedFieldsZero 0x00016051) ∧ (modeField 0x00007056 = 7 ∧ opField 0x00007056 = 6)
      ∧ (rsvField 0x00007FF1 = 0 ∧ opField 0x00007FF1 = 1 ∧ unusedFieldsZero 0x00007FF1 ∧ modeField 0x00007FF1 = 7) := by
  decide
theorem test_witness_RegisterOffsetsFollowTheFormulas : Params.reference.offsets = Offsets.reference ∧ 63 ≤ 63 := by decide
/-- Pins 62 and 63 share all three registers; 59 and 63 are the last pair four apart; quad 15 is the last. -/
theorem test_witness_PinsShareOnlyWhatTheResolverSays :
    (62 ≠ 63 ∧ bankOf 62 = bankOf 63 ∧ cfgLoc 62 = cfgLoc 63 ∧ muxLoc 62 = muxLoc 63) ∧ 59 + 4 ≤ 63 ∧ 15 ≤ 15 := by decide
theorem test_witness_FieldInsertionObeysItsLaws : 28 + 4 ≤ 32 ∧ 24 + 8 ≤ 32 ∧ 16 + 8 ≤ 24 := by decide

/-- The premises of the completion statements at pins 0 and 63. -/
theorem undisturbed (p : Nat) (h : p ≤ 63) : Undisturbed State.reset p := ⟨referenceOk, rfl, rfl, h⟩

theorem test_witness_CfgOutCompletes : Undisturbed State.reset 63 ∧ implemented State.reset.params (cfgLoc 63) = true :=
  ⟨undisturbed 63 (by decide), by decide⟩
theorem test_witness_CfgInCompletes : Undisturbed State.reset 0 ∧ implemented State.reset.params (cfgLoc 0) = true :=
  ⟨undisturbed 0 (by decide), by decide⟩
theorem test_witness_CfgPdCompletes : Undisturbed State.reset 31 ∧ implemented State.reset.params (cfgLoc 31) = true :=
  ⟨undisturbed 31 (by decide), by decide⟩
theorem test_witness_CfgPuCompletes : Undisturbed State.reset 32 ∧ implemented State.reset.params (cfgLoc 32) = true :=
  ⟨undisturbed 32 (by decide), by decide⟩
theorem test_witness_CfgPfCompletes : Undisturbed State.reset 63 ∧ implemented State.reset.params (cfgLoc 63) = true
    ∧ implemented State.reset.params (muxLoc 63) = true := ⟨undisturbed 63 (by decide), by decide, by decide⟩
theorem test_witness_CfgPfaCompletes : Undisturbed State.reset 0 ∧ implemented State.reset.params (cfgLoc 0) = true
    ∧ implemented State.reset.params (muxLoc 0) = true := ⟨undisturbed 0 (by decide), by decide, by decide⟩
theorem test_witness_CfgAnCompletes : Undisturbed State.reset 62 ∧ implemented State.reset.params (cfgLoc 62) = true
    ∧ implemented State.reset.params (muxLoc 62) = true := ⟨undisturbed 62 (by decide), by decide, by decide⟩
theorem test_witness_SetlvlCompletes : Undisturbed State.reset 63 ∧ 62 ≤ 63 ∧ 62 ≠ 63 :=
  ⟨undisturbed 63 (by decide), by decide, by decide⟩
theorem test_witness_GetlvlCompletes : Undisturbed State.reset 31 := undisturbed 31 (by decide)
theorem test_witness_GetcfgCompletes : Undisturbed State.reset 63 ∧ implemented State.reset.params (cfgLoc 63) = true :=
  ⟨undisturbed 63 (by decide), by decide⟩
theorem test_witness_GetmuxCompletes : Undisturbed State.reset 63 ∧ implemented State.reset.params (muxLoc 63) = true :=
  ⟨undisturbed 63 (by decide), by decide⟩
theorem test_witness_RslvBitCompletes : Undisturbed State.reset 32 := undisturbed 32 (by decide)
theorem test_witness_RslvCfgCompletes : Undisturbed State.reset 60 ∧ implemented State.reset.params (cfgLoc 60) = true :=
  ⟨undisturbed 60 (by decide), by decide⟩
theorem test_witness_RslvMuxCompletes : Undisturbed State.reset 63 ∧ implemented State.reset.params (muxLoc 63) = true :=
  ⟨undisturbed 63 (by decide), by decide⟩

/-- Every mode's command passes its checks on pin 63 of the reference package. -/
theorem configureAccepted (M : Mode) : commandFault State.reset.params (Instr.configure 63 M) = none := by
  cases M <;> rfl

theorem test_witness_ConfigureReachesItsMode (M : Mode) : ParamsOk State.reset.params ∧ Alone State.reset ∧ 63 ≤ 63
    ∧ commandFault State.reset.params (Instr.configure 63 M) = none := ⟨referenceOk, rfl, by decide, configureAccepted M⟩
theorem test_witness_ConfigureIsIdempotent (M : Mode) : ParamsOk State.reset.params ∧ Alone State.reset ∧ 63 ≤ 63
    ∧ commandFault State.reset.params (Instr.configure 63 M) = none := ⟨referenceOk, rfl, by decide, configureAccepted M⟩
theorem test_witness_OutputReadsBackTheLevelSet : ParamsOk State.reset.params ∧ Alone State.reset ∧ 63 ≤ 63
    ∧ implemented State.reset.params (cfgLoc 63) = true := ⟨referenceOk, rfl, by decide, by decide⟩
/-- The three modes of the statement, each with its selector. -/
theorem test_witness_NibbleReadsBackBesideItsSibling :
    (ParamsOk State.reset.params ∧ Alone State.reset ∧ 63 ≤ 63)
      ∧ ∀ M ∈ [(Mode.peripheral 15, (15 : Nibble)), (.peripheralAlt 0, 0), (.analog, 1)],
          commandFault State.reset.params (Instr.configure 63 M.1) = none
            ∧ (M.1 = .peripheral M.2 ∨ M.1 = .peripheralAlt M.2 ∨ (M.1 = .analog ∧ M.2 = State.reset.params.analogSel)) :=
  ⟨⟨referenceOk, rfl, by decide⟩, by decide⟩

/-- `cfg.pf 7, 6` of 95_test_vectors.md 2.6 among others: between its accesses the host reads `STATUS` and the environment
writes `PMUX[0][1]`, which the command does not access. After its `FINISH` the environment writes what it did access. -/
def amongBefore : List Turn :=
  [.engine, .hostRead 0 4 4, .busWrite .environment 0x34 4 0x00000030, .engine, .engine, .engine, .engine]

def amongOthers : State :=
  { machine zeroBank with agenda := amongBefore ++ [.busWrite .environment 0x30 4 0, .engineReset false] }

theorem test_witness_ConfigureReachesItsModeAmongOtherAgents :
    let t := amongOthers.accept (commandSeq amongOthers.params (Instr.configure 7 (.peripheral 6)))
    ParamsOk amongOthers.params ∧ 7 ≤ 63 ∧ exec (Instr.configure 7 (.peripheral 6)) amongOthers = .next t ∧ t.st = .busy
      ∧ (∀ a ∈ amongBefore, a.spares amongOthers.params (configureLocs 7 (.peripheral 6)))
      ∧ (∃ u, run 7 t = .next u ∧ amongOthers.agenda = amongBefore ++ u.agenda ∧ u.st = .idle)
      ∧ ∀ k v, k < 7 → run k t = .next v → v.st = .busy := by
  refine ⟨referenceOk, by decide, rfl, rfl, ?_, ⟨_, rfl, rfl, rfl⟩, ?_⟩
  · intro a ha
    simp only [amongBefore, List.mem_cons, List.not_mem_nil, or_false] at ha
    rcases ha with rfl | rfl | rfl | rfl | rfl | rfl | rfl <;> simp only [Turn.spares]
    decide
  · intro k v hk hr
    interval_cases k <;> cases hr <;> rfl

theorem test_witness_SequenceIgnoresTheBank : (machine zeroBank).params = (machine startBank).params
    ∧ (∃ t, exec (.cfgOut 63) (machine zeroBank) = .next t ∧ t.st = .busy)
    ∧ ∃ t, exec (.cfgOut 63) (machine startBank) = .next t := ⟨rfl, ⟨_, rfl, rfl⟩, _, rfl⟩

theorem test_witness_StepRunsTheDecodedCommand :
    let s : State := { State.reset with agenda := [.hostWrite 1 State.reset.params.engineBase 4 0x000003F8] }
    s.st = .idle ∧ s.held = [] ∧ s.agenda = .hostWrite 1 s.params.engineBase 4 0x000003F8 :: []
      ∧ decode 0x000003F8 = .cmd (.rslvMux 63) := ⟨rfl, rfl, rfl, by decide⟩

/-- A word under each clause, at the edge: pin 64 and pin 63, `MODE = 7`, an absent register, and acceptance. -/
theorem test_witness_IssueReportsTheFirstFault :
    decode 0x00000000 = .illegal
      ∧ (decode 0x00007401 ≠ .illegal ∧ 63 < (pinField 0x00007401).toNat)
      ∧ (decode 0x000073F1 ≠ .illegal ∧ (pinField 0x000073F1).toNat ≤ 63 ∧ opField 0x000073F1 = 1
          ∧ modeField 0x000073F1 = 7)
      ∧ (decode 0x000063F1 ≠ .illegal ∧ (pinField 0x000063F1).toNat ≤ 63
          ∧ ¬ (opField 0x000063F1 = 1 ∧ modeField 0x000063F1 = 7)
          ∧ usesMuxRegister 0x000063F1 ∧ implemented smallPackage (muxLoc (pinField 0x000063F1).toNat) = false)
      ∧ (decode 0x000063F1 ≠ .illegal ∧ (pinField 0x000063F1).toNat ≤ 63
          ∧ ¬ (opField 0x000063F1 = 1 ∧ modeField 0x000063F1 = 7)
          ∧ implemented Params.reference (cfgLoc (pinField 0x000063F1).toNat) = true
          ∧ implemented Params.reference (muxLoc (pinField 0x000063F1).toNat) = true) := by decide

theorem test_witness_OutOfRangePinsFault : 63 < (Instr.setlvl 64 true).pin ∧ 63 < (Instr.cfgAn 255).pin
    ∧ decode 0x00007401 ≠ .illegal ∧ 63 < (pinField 0x00007401).toNat := by decide
theorem test_witness_UnimplementedRegistersFault : 63 ≤ 63 ∧ implemented smallPackage (cfgLoc 63) = false
    ∧ implemented smallPackage (muxLoc 63) = false := by decide

theorem test_witness_OnlyResetLeavesFault :
    let s : State := { machine zeroBank with st := .fault, errcode := 1, cmd := 0x401, agenda := [.hostWrite 0 0 4 0x8032] }
    s.st = .fault ∧ (∃ t, step s = .next t) ∧ ¬ ResetNext s := by
  refine ⟨rfl, ⟨_, rfl⟩, ?_⟩
  rintro ⟨t, rest, h, hr⟩
  cases h
  exact absurd hr (by decide)

theorem test_witness_StatusShowsTheEngine :
    let s : State := { machine zeroBank with st := .fault, errcode := 1, cmd := 0x401, agenda := [.hostWrite 0 0 4 0x8032] }
    (statusWord s).getLsbD 1 = true ∧ (∃ t, step s = .next t) ∧ ¬ ResetNext s := by
  refine ⟨by decide, ⟨_, rfl⟩, ?_⟩
  rintro ⟨t, rest, h, hr⟩
  cases h
  exact absurd hr (by decide)

theorem test_witness_BusyEngineNeverFaults : StateOk midCommand ∧ midCommand.st = .busy := ⟨midCommandOk, rfl⟩
/-- The environment reads a set port. -/
theorem test_witness_OnlyOutsideAccessesStop :
    let s : State := { machine zeroBank with agenda := [.busRead .environment 0x18 4] }
    StateOk s ∧ ∀ t, step s ≠ .next t :=
  ⟨⟨referenceOk, by decide, ⟨rfl, rfl⟩, by decide⟩, fun t h => by cases h⟩

theorem test_witness_EngineResetKeepsTheBank :
    ({ machine startBank with agenda := [.engineReset false] } : State).agenda = .engineReset false :: [] := rfl
theorem test_witness_PlatformResetRedrawsTheBank :
    ({ machine startBank with agenda := [.platformReset true] } : State).agenda = .platformReset true :: [] := rfl

/-- The last of the four registers, read by context 1 while a write of context 0 is held; and a sound state whose `STATUS` is
read with `BUSY` 0. -/
theorem test_witness_HostReadsReturnTheRegister :
    let s : State := { machine zeroBank with held := [⟨0, 0⟩], agenda := [.hostRead 1 (0 + 0x0C) 4] }
    let s' : State := { machine zeroBank with agenda := [.hostRead 1 (0 + 0x04) 4] }
    (((0x0C : Word) = 0x0C ∧ s.rsp1 = s.rsp1) ∧ s.agenda = .hostRead 1 (s.params.engineBase + 0x0C) 4 :: []
        ∧ Free s (.host 1))
      ∧ StateOk s' ∧ s'.agenda = .hostRead 1 (s'.params.engineBase + 0x04) 4 :: [] ∧ Free s' (.host 1)
      ∧ ∃ t, step s' = .next t ∧ t.hostData = some 0 ∧ (0 : Word).getLsbD 0 = false :=
  ⟨⟨⟨rfl, rfl⟩, rfl, by decide⟩, machineOk _ (by decide), rfl, by decide, _, rfl, rfl, rfl⟩
/-- One state for each of IDLE, BUSY, FAULT under the agenda premise; the last offset ignored; a free context's write in IDLE
behind a held one; a held write in IDLE and in FAULT, the turn said to be the engine's or left to it; a turn that must wait. -/
theorem test_witness_HostWritesIssueHoldOrVanish :
    (∀ st ∈ [SeqState.idle, .busy, .fault],
      let s : State := { machine zeroBank with st := st, agenda := [.hostWrite 1 (0 + 0x00) 4 0x00000281] }
      s.agenda = .hostWrite 1 (s.params.engineBase + 0x00) 4 0x00000281 :: [] ∧ Free s (.host 1) ∧ s.held = []
        ∧ s.st = st)
      ∧ (let s : State := { machine zeroBank with agenda := [.hostWrite 1 (0 + 0x0C) 4 7] }
        s.agenda = .hostWrite 1 (s.params.engineBase + 0x0C) 4 7 :: [] ∧ Free s (.host 1))
      ∧ (let s : State := { machine zeroBank with held := [⟨0, 7⟩], agenda := [.hostWrite 1 (0 + 0x00) 4 7] }
        s.agenda = .hostWrite 1 (s.params.engineBase + 0x00) 4 7 :: [] ∧ Free s (.host 1) ∧ s.st = .idle ∧ s.held ≠ [])
      ∧ (∀ st ∈ [SeqState.idle, .fault], ∀ ag ∈ [[], [Turn.engine]],
        let s : State := { machine zeroBank with st := st, held := [⟨0, 7⟩], agenda := ag }
        s.held = ⟨0, 7⟩ :: [] ∧ s.st = st ∧ (s.agenda = [] ∨ s.agenda = .engine :: []))
      ∧ let s : State := { midCommand with held := [⟨3, 0x00000075⟩], agenda := [.busRead (.host 3) 0x10 4] }
        s.agenda = .busRead (.host 3) 0x10 4 :: [] ∧ ⟨3, 0x00000075⟩ ∈ s.held
          ∧ (Turn.busRead (.host 3) 0x10 4).madeBy = some (.host 3) ∧ ∃ t, step s = .next t :=
  ⟨by decide, by decide, by decide, by decide, rfl, by decide, rfl, _, rfl⟩
/-- The width beside 4, the byte after `CMD`, the word after `RSP1`. -/
theorem test_witness_OtherHostAccessesAreRefused :
    (2 ≠ 4 ∨ ((0x00 : Word) ≠ 0x00 ∧ (0x00 : Word) ≠ 0x04 ∧ (0x00 : Word) ≠ 0x08 ∧ (0x00 : Word) ≠ 0x0C))
      ∧ ((0x01 : Word) ≠ 0x00 ∧ (0x01 : Word) ≠ 0x04 ∧ (0x01 : Word) ≠ 0x08 ∧ (0x01 : Word) ≠ 0x0C)
      ∧ ((0x10 : Word) ≠ 0x00 ∧ (0x10 : Word) ≠ 0x04 ∧ (0x10 : Word) ≠ 0x08 ∧ (0x10 : Word) ≠ 0x0C)
      ∧ (let s : State := { machine zeroBank with agenda := [.hostRead 0 (0 + 0x10) 4] }
        s.agenda = .hostRead 0 (s.params.engineBase + 0x10) 4 :: [] ∧ Free s (.host 0))
      ∧ let s : State := { machine zeroBank with agenda := [.hostWrite 0 (0 + 0x00) 2 1] }
        s.agenda = .hostWrite 0 (s.params.engineBase + 0x00) 2 1 :: [] ∧ Free s (.host 0) := by decide

theorem test_witness_ResponsesChangeOnlyAtFinish :
    let s := busyMachine zeroBank 0 [.finish (.const 0x418) 0x3C]
    ∃ t, step s = .next t ∧ (t.rsp0 ≠ s.rsp0 ∨ t.rsp1 ≠ s.rsp1) := ⟨_, rfl, by decide⟩
/-- A step under each of the four causes of a change of `ST`. -/
theorem test_witness_SequencerTransitionsAreTheFive :
    (∃ t, step ((machine zeroBank).withFetchWord 32 0x281) = .next t ∧ t.st = .busy)
      ∧ (∃ t, step ((machine zeroBank).withFetchWord 32 0x401) = .next t ∧ t.st = .fault)
      ∧ (∃ t, step (busyMachine zeroBank 0 [.finish (.const 0) 0]) = .next t ∧ t.st = .idle)
      ∧ ∃ t, step { midCommand with agenda := [.engineReset false] } = .next t ∧ t.st = .idle :=
  ⟨⟨_, rfl, rfl⟩, ⟨_, rfl, rfl⟩, ⟨_, rfl, rfl⟩, _, rfl, rfl⟩
theorem test_witness_BusyEngineFinishesInItsLength : StateOk midCommand ∧ Alone midCommand ∧ midCommand.st = .busy :=
  ⟨midCommandOk, rfl, rfl⟩
theorem test_witness_HeldWriteIsIssuedNext :
    let s : State := { midCommand with held := [⟨1, 0x00000075⟩, ⟨0, 0x00000065⟩] }
    StateOk s ∧ Alone s ∧ s.st = .busy ∧ s.held = ⟨1, 0x00000075⟩ :: [⟨0, 0x00000065⟩] :=
  ⟨⟨midCommandOk.1, midCommandOk.2.1, midCommandOk.2.2.1, by decide⟩, rfl, rfl, rfl⟩

theorem test_witness_EngineReachesOnlyPortsAndPackedRegisters :
    ∀ i ∈ [Instr.cfgOut 63, .cfgPf 63 15, .getlvl 0, .getmux 63, .rslvCfg 0], commandFault Params.reference i = none := by
  decide
theorem test_witness_SetAndClearPortsTouchOnlyOneBits : ParamsOk (machine startBank).params := referenceOk
/-- `DIR[1]` written, `OUT[0]` read by the environment while a write of context 0 is held, and a read that is answered. -/
theorem test_witness_PlainRegistersAreReadAndReplacedWhole :
    let P := Params.reference
    let s : State := { machine startBank with agenda := [.busWrite (.host 0) (busAddr P (regOffset P (.dir 1))) 4 7] }
    let s' : State := { machine startBank with
      held := [⟨0, 0⟩], agenda := [.busRead .environment (busAddr P (regOffset P (.out 0))) 4] }
    ParamsOk P ∧ Free s (.host 0)
      ∧ s.agenda = .busWrite (.host 0) (busAddr s.params (regOffset s.params (.dir 1))) 4 7 :: []
      ∧ Free s' .environment
      ∧ s'.agenda = .busRead .environment (busAddr s'.params (regOffset s'.params (.out 0))) 4 :: []
      ∧ ∃ t, step s' = .next t := ⟨referenceOk, by decide, rfl, by decide, rfl, _, rfl⟩
/-- Two ports of one register; `DIRCLR` and `OUTSET` with one mask, as `cfg.pu` writes them; one mask in both banks. -/
theorem test_witness_PortWritesToDifferentBitsNeverLoseEachOther :
    (0x80000000 : Word) &&& 0x00000001 = 0 ∧ (∀ l ∈ [BankLoc.dirset 1, .dirclr 1, .outset 1, .outclr 1], l ∈ ports 1)
      ∧ (BankLoc.dirclr 0 ∈ ports 0 ∧ BankLoc.outset 0 ∈ ports 0
          ∧ (portRegister (.dirclr 0) = portRegister (.outset 0) → (0x20 : Word) &&& 0x20 = 0))
      ∧ (BankLoc.outset 0 ∈ ports 0 ∧ BankLoc.outset 1 ∈ ports 1
          ∧ (portRegister (.outset 0) = portRegister (.outset 1) → (0x20 : Word) &&& 0x20 = 0)) := by decide
theorem test_witness_InputReadsBackOrDraws : ParamsOk (machine outputBank).params := referenceOk
theorem test_witness_PackedRegistersReadBack : ParamsOk (machine startBank).params
    ∧ (machine startBank).params.cfgImpl[1][7] = true ∧ (machine startBank).params.muxImpl[1][3] = true :=
  ⟨referenceOk, by decide, by decide⟩
/-- Width 1; the first offset above the surface, a gap, the first offset above bank 0's registers, an offset between two
words; the last configuration and multiplexer registers, absent. -/
theorem test_witness_AccessesOutsideTheSurfaceAreRefused :
    (machine zeroBank).params.offsets = Offsets.reference ∧ 1 ≠ 4 ∧ 0x100 ≤ (0x100 : Word).toNat
      ∧ (0x8C : Word).toNat % 0x80 ∈ [0x0C, 0x1C, 0x24, 0x28, 0x2C] ∧ 0x60 ≤ (0x60 : Word).toNat % 0x80
      ∧ (0x02 : Word).toNat % 4 ≠ 0
      ∧ (smallPackage.offsets = Offsets.reference ∧ smallPackage.cfgImpl[1][7] = false
          ∧ (0xDC : Word) = BitVec.ofNat 32 (0x80 * 1 + 0x40 + 4 * 7)
          ∧ smallPackage.muxImpl[1][3] = false ∧ (0xBC : Word) = BitVec.ofNat 32 (0x80 * 1 + 0x30 + 4 * 3)) := by decide
/-- The race of 95_test_vectors.md 2.6, and its configuration byte raced in the same way by context 1. -/
theorem test_witness_UpdateBetweenReadAndWriteBackIsLost :
    let P := Params.reference
    let mux := regOffset P (.pmux 0 0)
    let cfg := regOffset P (.pincfg 0 1)
    let s : State := { busyMachine zeroBank 0 [.rd mux, .wrm mux 28 4 6, .finish (.const 0) 0] with
      agenda := [.engine, .busWrite .environment (busAddr P mux) 4 0x00000030, .engine] }
    let s' : State := { busyMachine zeroBank 0 [.rd cfg, .wrm cfg 24 8 0x43, .finish (.const 0) 0] with
      agenda := [.engine, .busWrite (.host 1) (busAddr P cfg) 4 0xFFFFFFFF, .engine] }
    (ParamsOk s.params ∧ s.params.muxImpl[(0 : Fin 2)][(0 : Fin 4)] = true ∧ s.st = .busy ∧ Free s .environment
      ∧ s.seq = .rd mux :: .wrm mux 28 4 6 :: [.finish (.const 0) 0]
      ∧ s.agenda = .engine :: .busWrite .environment (busAddr s.params mux) 4 0x00000030 :: .engine :: [])
    ∧ ParamsOk s'.params ∧ s'.params.cfgImpl[(0 : Fin 2)][(1 : Fin 8)] = true ∧ s'.st = .busy ∧ Free s' (.host 1)
      ∧ s'.seq = .rd cfg :: .wrm cfg 24 8 0x43 :: [.finish (.const 0) 0]
      ∧ s'.agenda = .engine :: .busWrite (.host 1) (busAddr s'.params cfg) 4 0xFFFFFFFF :: .engine :: [] :=
  ⟨⟨referenceOk, by decide, rfl, by decide, rfl, rfl⟩, referenceOk, by decide, rfl, by decide, rfl, rfl⟩
theorem test_witness_EveryStepKeepsTheMachineSound : StateOk midCommand ∧ ∃ t, step midCommand = .next t :=
  ⟨midCommandOk, _, rfl⟩
/-- A sound machine in FAULT. -/
theorem test_fault_state_is_sound : StateOk { machine zeroBank with st := .fault, errcode := 1, cmd := 0x00000401 } :=
  ⟨referenceOk, by decide, ⟨rfl, .pinRange, by decide, rfl⟩, by decide⟩

end Sys2Proof.Tests
end

section
/-! PROOFS of 00_scope.md R9: the machine is sound at reset and every step keeps it sound. The steps are taken apart by the
inversion lemmas of Laws/Step.lean; the one fact about commands that is needed is where their `FINISH` stands. -/

namespace Sys2Proof.Machine

/-- Settles O60. -/
theorem resetIsSound : Obligations.ResetIsSound :=
  ⟨by decide, drawnFrom_wf Params.reference 0, ⟨rfl, rfl⟩, List.nodup_nil⟩

/-! ## `FINISH` stands at the end of a command's sequence and nowhere else (20_memory.md R70) -/

theorem commandSeq_eq_append_finish (P : Params) (i : Instr) :
    ∃ ops r0 r1, commandSeq P i = ops ++ [.finish r0 r1] ∧ ∀ op ∈ ops, ∀ a b, op ≠ .finish a b := by
  cases i with
  | rslvBit p k => exact ⟨[], _, _, rfl, by simp⟩
  | rslvCfg p => exact ⟨[], _, _, rfl, by simp⟩
  | rslvMux p => exact ⟨[], _, _, rfl, by simp⟩
  | setlvl p l => exact ⟨[_], _, _, rfl, by simp⟩
  | getlvl p => exact ⟨[_], _, _, rfl, by simp⟩
  | getcfg p => exact ⟨[_], _, _, rfl, by simp⟩
  | getmux p => exact ⟨[_], _, _, rfl, by simp⟩
  | cfgOut p => exact ⟨_, _, _, rfl, by simp [cfgw]⟩
  | cfgIn p => exact ⟨_, _, _, rfl, by simp [cfgw]⟩
  | cfgPd p => exact ⟨_, _, _, rfl, by simp [cfgw]⟩
  | cfgPu p => exact ⟨_, _, _, rfl, by simp [cfgw]⟩
  | cfgPf p sel => exact ⟨_, _, _, rfl, by simp [muxw, cfgw]⟩
  | cfgPfa p sel => exact ⟨_, _, _, rfl, by simp [muxw, cfgw]⟩
  | cfgAn p => exact ⟨_, _, _, rfl, by simp [muxw, cfgw]⟩

theorem commandSeq_ne_nil (P : Params) (i : Instr) : commandSeq P i ≠ [] := by
  obtain ⟨ops, r0, r1, h, -⟩ := commandSeq_eq_append_finish P i
  simp [h]

/-- What is left of a command's sequence ends with this micro-operation exactly when it is the `FINISH`. -/
theorem rest_eq_nil_iff_finish (P : Params) (i : Instr) (op : MicroOp) (rest : List MicroOp)
    (h : op :: rest <:+ commandSeq P i) : rest = [] ↔ ∃ r0 r1, op = .finish r0 r1 := by
  obtain ⟨ops, r0, r1, hseq, hops⟩ := commandSeq_eq_append_finish P i
  rw [hseq, List.suffix_concat_iff] at h
  obtain h | ⟨front, hfront, hsuf⟩ := h
  · cases h
  cases front with
  | nil => cases hfront; simp
  | cons a front =>
    cases hfront
    have hop : ∀ a b, op ≠ .finish a b := hops op (hsuf.mem (List.mem_cons_self ..))
    simp [hop]

/-! ## What `EngineOk` says in each state of the sequencer (10_state.md R21) -/

theorem engineOk_iff_of_idle (s : State) (h : s.st = .idle) : EngineOk s ↔ s.seq = [] ∧ s.errcode = 0 := by
  rw [EngineOk, h]

theorem engineOk_iff_of_busy (s : State) (h : s.st = .busy) : EngineOk s ↔ s.errcode = 0 ∧ s.seq ≠ [] ∧
    ∃ i, decode s.cmd = .cmd i ∧ commandFault s.params i = none ∧ s.seq <:+ commandSeq s.params i := by
  rw [EngineOk, h]

theorem engineOk_iff_of_fault (s : State) (h : s.st = .fault) :
    EngineOk s ↔ s.seq = [] ∧ ∃ c, wordFault s.params s.cmd = some c ∧ s.errcode = c.code := by
  rw [EngineOk, h]

/-! ## What the engine's turn is in each state of the sequencer (10_state.md R30, 20_memory.md R70) -/

theorem engineTurn_of_busy (s : State) (h : s.st = .busy) : engineTurn s = microStep s := by
  rw [engineTurn, h]

theorem engineTurn_of_idle_nil (s : State) (h : s.st = .idle) (hh : s.held = []) : engineTurn s = .next s := by
  simp only [engineTurn, h, hh]

theorem engineTurn_of_idle_cons (s : State) (g : HeldWrite) (gs : List HeldWrite) (h : s.st = .idle)
    (hh : s.held = g :: gs) : engineTurn s = issue g.word { s with held := gs } := by
  simp only [engineTurn, h, hh]

theorem engineTurn_of_fault (s : State) (h : s.st = .fault) : engineTurn s = .next { s with held := s.held.tail } := by
  simp only [engineTurn, h]

/-! ## What each operation keeps -/

/-- Only writes change the bank, and they keep its reserved bits 0 (R37). -/
theorem perform_keeps_wf (op : MicroOp) (s s' : State) (h : BankWf s.params s.bank) (e : perform op s = .next s') :
    BankWf s'.params s'.bank := by
  cases op with
  | wr off v => exact memWrite_keeps_wf _ _ s s' h e
  | wrm off pos n v => exact memWrite_keeps_wf _ _ s s' h e
  | rd off =>
    rcases memRead_cases (busAddr s.params off) s with ⟨w, hr | hr⟩ | ⟨r, hr⟩ <;> simp only [perform, hr] at e <;> cases e
    · exact h
    · exact h
  | finish r0 r1 => cases e; exact h

theorem perform_keeps_params (op : MicroOp) (s s' : State) (e : perform op s = .next s') : s'.params = s.params := by
  rcases perform_cases op s s' e with ⟨_, rfl⟩ | ⟨_, rfl | rfl⟩ | ⟨_, _, _, rfl⟩ <;> rfl

theorem perform_keeps_held (op : MicroOp) (s s' : State) (e : perform op s = .next s') : s'.held = s.held := by
  rcases perform_cases op s s' e with ⟨_, rfl⟩ | ⟨_, rfl | rfl⟩ | ⟨_, _, _, rfl⟩ <;> rfl

/-- A bus access does not touch the registers `EngineOk` speaks of; only a `FINISH` does. -/
theorem perform_keeps_engineOk (op : MicroOp) (s s' : State) (hop : ∀ r0 r1, op ≠ .finish r0 r1)
    (h : EngineOk s) (e : perform op s = .next s') : EngineOk s' := by
  rcases perform_cases op s s' e with ⟨_, rfl⟩ | ⟨_, rfl | rfl⟩ | ⟨r0, r1, hf, _⟩
  · exact h
  · exact h
  · exact h
  · exact absurd hf (hop r0 r1)

/-- Taking the oldest held write off leaves no context with two (R30). -/
theorem heldOk_tail (s : State) (h : HeldOk s) : HeldOk { s with held := s.held.tail } := by
  simpa only [HeldOk, List.map_tail] using h.tail

/-- A context that does not wait has no write held, so the one it makes may be held (R30, 20_memory.md R73). -/
theorem heldOk_holdWrite (s : State) (ctx : Nat) (w : Word) (h : HeldOk s) (hfree : ∀ g ∈ s.held, g.ctx ≠ ctx) :
    HeldOk (holdWrite ctx w s) := by
  simp only [HeldOk, holdWrite, List.map_append, List.map_cons, List.map_nil]
  refine h.append (List.nodup_singleton ctx) ?_
  simpa [List.disjoint_singleton] using hfree

/-! ## Every turn keeps the machine sound -/

/-- Issue in IDLE ends in FAULT with the word and its code, or in BUSY with the whole sequence of its command (R181). -/
theorem issue_keeps_sound (w : Word) (s t : State) (hs : StateOk s) (hi : s.st = .idle) (e : issue w s = .next t) :
    StateOk t ∧ t.params = s.params := by
  obtain ⟨hparams, hbank, hengine, hheld⟩ := hs
  obtain ⟨hseq, hcode⟩ := (engineOk_iff_of_idle s hi).1 hengine
  rcases issue_cases w s with ⟨c, hf, h⟩ | ⟨i, hd, hf, h⟩ <;> rw [h] at e <;> cases e
  · exact ⟨⟨hparams, hbank, (engineOk_iff_of_fault _ rfl).2 ⟨hseq, c, hf, rfl⟩, hheld⟩, rfl⟩
  · have hbusy := (engineOk_iff_of_busy (State.accept (commandSeq s.params i) { s with cmd := w }) rfl).2
      ⟨hcode, commandSeq_ne_nil _ i, i, hd, hf, List.suffix_refl _⟩
    exact ⟨⟨hparams, hbank, hbusy, hheld⟩, rfl⟩

/-- In BUSY the head of `SEQ` leaves it: what is left is still a rest of the command's sequence, empty only if the head was
the `FINISH`, and then the engine is IDLE. -/
theorem microStep_keeps_sound (s t : State) (hs : StateOk s) (hb : s.st = .busy) (e : microStep s = .next t) :
    StateOk t ∧ t.params = s.params := by
  obtain ⟨hparams, hbank, hengine, hheld⟩ := hs
  obtain ⟨hcode, hne, i, hd, hf, hsuf⟩ := (engineOk_iff_of_busy s hb).1 hengine
  obtain ⟨op, rest, hseq⟩ := List.exists_cons_of_ne_nil hne
  rw [hseq] at hsuf
  simp only [microStep, hseq] at e
  have hlast := rest_eq_nil_iff_finish s.params i op rest hsuf
  have hP : t.params = s.params := perform_keeps_params op (s.withSeq rest) t e
  have hH : t.held = s.held := perform_keeps_held op (s.withSeq rest) t e
  have hE : EngineOk t := by
    by_cases hrest : rest = []
    · obtain ⟨r0, r1, rfl⟩ := hlast.1 hrest
      cases e
      exact (engineOk_iff_of_idle _ rfl).2 ⟨hrest, hcode⟩
    · have hop : ∀ r0 r1, op ≠ .finish r0 r1 := fun r0 r1 h => hrest (hlast.2 ⟨r0, r1, h⟩)
      have hrestOk : EngineOk (s.withSeq rest) :=
        (engineOk_iff_of_busy (s.withSeq rest) hb).2 ⟨hcode, hrest, i, hd, hf, (List.suffix_cons op rest).trans hsuf⟩
      exact perform_keeps_engineOk op (s.withSeq rest) t hop hrestOk e
  exact ⟨⟨by rwa [hP], perform_keeps_wf op (s.withSeq rest) t hbank e, hE, by rwa [HeldOk, hH]⟩, hP⟩

theorem engineTurn_keeps_sound (s t : State) (hs : StateOk s) (e : engineTurn s = .next t) :
    StateOk t ∧ t.params = s.params := by
  obtain ⟨hparams, hbank, hengine, hheld⟩ := id hs
  have htail : StateOk { s with held := s.held.tail } := ⟨hparams, hbank, hengine, heldOk_tail s hheld⟩
  cases hst : s.st with
  | busy =>
    rw [engineTurn_of_busy s hst] at e
    exact microStep_keeps_sound s t hs hst e
  | idle =>
    cases hh : s.held with
    | nil =>
      rw [engineTurn_of_idle_nil s hst hh] at e
      cases e
      exact ⟨hs, rfl⟩
    | cons h rest =>
      rw [engineTurn_of_idle_cons s h rest hst hh] at e
      rw [hh] at htail
      exact issue_keeps_sound h.word { s with held := rest } t htail hst e
  | fault =>
    rw [engineTurn_of_fault s hst] at e
    cases e
    exact ⟨htail, rfl⟩

/-- A reset leaves the engine IDLE with nothing to perform, whether or not the held writes survive it (R42, R210). -/
theorem engineReset_keeps_sound (d : Bool) (s : State) (hs : StateOk s) : StateOk (s.engineReset d) := by
  obtain ⟨hparams, hbank, -, hheld⟩ := hs
  refine ⟨hparams, hbank, (engineOk_iff_of_idle _ rfl).2 ⟨rfl, rfl⟩, ?_⟩
  cases d with
  | true => exact List.nodup_nil
  | false => exact hheld

/-- A platform reset is an engine reset with a bank of draws, which is in canonical form (R43, R212). -/
theorem platformReset_keeps_sound (d : Bool) (s : State) (hs : StateOk s) : StateOk (s.platformReset d) := by
  obtain ⟨hparams, -, hengine, hheld⟩ := engineReset_keeps_sound d s hs
  exact ⟨hparams, drawnFrom_wf s.params s.drawn, hengine, hheld⟩

/-- An access of another agent that need not wait. -/
theorem access_keeps_sound (a : Turn) (s t : State) (hs : StateOk s) (hw : s.waits a = false)
    (hr : ∀ d, a ≠ .engineReset d) (hp : ∀ d, a ≠ .platformReset d) (he : a ≠ .engine) (e : takeTurn a s = .next t) :
    StateOk t ∧ t.params = s.params := by
  obtain ⟨hparams, hbank, hengine, hheld⟩ := id hs
  rcases access_cases a s t e hr hp he with
    ⟨ctx, addr, n, w, ha, ⟨hi, -, h⟩ | ⟨-, rfl⟩ | rfl⟩ | ⟨w, rfl⟩ | ⟨_, addr, n, v, B, -, h, rfl⟩ | ⟨w, rfl | rfl⟩
  · exact issue_keeps_sound w s t hs hi h
  · have hfree : ∀ g ∈ s.held, g.ctx ≠ ctx := by
      rintro g hg rfl
      exact Bool.false_ne_true (hw.symm.trans ((waits_iff s a).2 ⟨g, hg, by rw [ha]; rfl⟩))
    exact ⟨⟨hparams, hbank, hengine, heldOk_holdWrite s ctx w hheld hfree⟩, rfl⟩
  · exact ⟨hs, rfl⟩
  · exact ⟨hs, rfl⟩
  · exact ⟨⟨hparams, memWrite_keeps_wf addr v s _ hbank h, hengine, hheld⟩, rfl⟩
  · exact ⟨hs, rfl⟩
  · exact ⟨hs, rfl⟩

theorem takeTurn_keeps_sound (a : Turn) (s t : State) (hs : StateOk s) (hw : s.waits a = false)
    (e : takeTurn a s = .next t) : StateOk t ∧ t.params = s.params := by
  cases a with
  | engine => exact engineTurn_keeps_sound s t hs e
  | engineReset d => cases e; exact ⟨engineReset_keeps_sound d s hs, rfl⟩
  | platformReset d => cases e; exact ⟨platformReset_keeps_sound d s hs, rfl⟩
  | hostRead ctx addr n => exact access_keeps_sound _ s t hs hw nofun nofun nofun e
  | hostWrite ctx addr n v => exact access_keeps_sound _ s t hs hw nofun nofun nofun e
  | busRead who addr n => exact access_keeps_sound _ s t hs hw nofun nofun nofun e
  | busWrite who addr n v => exact access_keeps_sound _ s t hs hw nofun nofun nofun e

/-- Settles O59: a step is the engine's turn or the first turn of the agenda, and every turn keeps the machine sound. -/
theorem everyStepKeepsTheMachineSound : Obligations.EveryStepKeepsTheMachineSound := by
  intro s t hs e
  rcases step_cases s with ⟨h, -⟩ | ⟨a, rest, -, hw, h⟩ <;> rw [h] at e
  · exact engineTurn_keeps_sound s t hs e
  · exact takeTurn_keeps_sound a { s with agenda := rest } t hs hw e

end Sys2Proof.Machine
end

section
/-! PROOFS of 10_state.md R27, R32, R34, R40: which locations an accepted command reaches, so that in a sound state the engine's
turn always answers. -/

namespace Sys2Proof.Machine

/-! ## The accesses of an accepted command (10_state.md R32, R34, R40) -/

/-- An access the engine may make: a write of a set or clear port, a read of `IN` or a packed register, or a merge into a packed
register, always of a location that exists. -/
def EngineAccess (P : Params) (op : MicroOp) : Prop :=
  ∃ l : BankLoc, implemented P l = true ∧
    ((∃ v b, op = .wr (regOffset P l) v ∧ l ∈ [BankLoc.dirset b, .dirclr b, .outset b, .outclr b])
      ∨ (op = .rd (regOffset P l) ∧ ∃ b k m, l ∈ [BankLoc.input b, .pincfg b k, .pmux b m])
      ∨ ∃ pos n v b k m, op = .wrm (regOffset P l) pos n v ∧ l ∈ [BankLoc.pincfg b k, .pmux b m])

theorem engineAccess_wr_port (P : Params) (b : Fin 2) (l : BankLoc) (v : Word) (hi : implemented P l = true)
    (hl : l ∈ [BankLoc.dirset b, .dirclr b, .outset b, .outclr b]) : EngineAccess P (.wr (regOffset P l) v) :=
  ⟨l, hi, .inl ⟨v, b, rfl, hl⟩⟩

theorem engineAccess_rd_input (P : Params) (b : Fin 2) : EngineAccess P (.rd (regOffset P (.input b))) :=
  ⟨.input b, rfl, .inr (.inl ⟨rfl, b, 0, 0, by simp⟩)⟩

theorem engineAccess_rd_cfg (P : Params) (p : Nat) (h : implemented P (cfgLoc p) = true) :
    EngineAccess P (.rd (cfgRegOff P p)) :=
  ⟨cfgLoc p, h, .inr (.inl ⟨rfl, bankOf p, cfgIndex p, 0, by simp [cfgLoc]⟩)⟩

theorem engineAccess_rd_mux (P : Params) (p : Nat) (h : implemented P (muxLoc p) = true) :
    EngineAccess P (.rd (muxRegOff P p)) :=
  ⟨muxLoc p, h, .inr (.inl ⟨rfl, bankOf p, 0, muxIndex p, by simp [muxLoc]⟩)⟩

theorem cfgw_accesses (P : Params) (p : Nat) (v : Byte) (h : implemented P (cfgLoc p) = true) :
    ∀ op ∈ cfgw P p v, EngineAccess P op := by
  have hm : EngineAccess P (.wrm (cfgRegOff P p) (cfgShift p) 8 (v.setWidth 32)) :=
    ⟨cfgLoc p, h, .inr (.inr ⟨_, _, _, bankOf p, cfgIndex p, 0, rfl, by simp [cfgLoc]⟩)⟩
  simpa [cfgw] using ⟨engineAccess_rd_cfg P p h, hm⟩

theorem muxw_accesses (P : Params) (p : Nat) (sel : Nibble) (h : implemented P (muxLoc p) = true) :
    ∀ op ∈ muxw P p sel, EngineAccess P op := by
  have hm : EngineAccess P (.wrm (muxRegOff P p) (muxShift p) 4 (sel.setWidth 32)) :=
    ⟨muxLoc p, h, .inr (.inr ⟨_, _, _, bankOf p, 0, muxIndex p, rfl, by simp [muxLoc]⟩)⟩
  simpa [muxw] using ⟨engineAccess_rd_mux P p h, hm⟩

theorem muxw_append_cfgw_accesses (P : Params) (p : Nat) (sel : Nibble) (v : Byte)
    (h : implemented P (cfgLoc p) = true ∧ implemented P (muxLoc p) = true) :
    ∀ op ∈ muxw P p sel ++ cfgw P p v, EngineAccess P op :=
  List.forall_mem_append.2 ⟨muxw_accesses P p sel h.2, cfgw_accesses P p v h.1⟩

/-! ## What a passed check says (60_exceptions.md R184, R186) -/

@[simp] theorem firstFault_eq_none (cs : List (Option FaultCode)) : firstFault cs = none ↔ ∀ c ∈ cs, c = none := by
  induction cs with
  | nil => simp [firstFault]
  | cons c cs ih => cases c <;> simp [firstFault, ih]

@[simp] theorem checkImpl_eq_none (P : Params) (l : BankLoc) : checkImpl P l = none ↔ implemented P l = true := by
  simp [checkImpl]

theorem cfgLoc_implemented_of_checkCfg (P : Params) (p : Nat) (h : checkCfg P p = none) :
    implemented P (cfgLoc p) = true := by
  simp only [checkCfg, firstFault_eq_none, List.forall_mem_cons, checkImpl_eq_none] at h
  exact h.2.1

theorem muxLoc_implemented_of_checkMux (P : Params) (p : Nat) (h : checkMux P p = none) :
    implemented P (muxLoc p) = true := by
  simp only [checkMux, firstFault_eq_none, List.forall_mem_cons, checkImpl_eq_none] at h
  exact h.2.1

theorem implemented_of_checkCfgMux (P : Params) (p : Nat) (h : checkCfgMux P p = none) :
    implemented P (cfgLoc p) = true ∧ implemented P (muxLoc p) = true := by
  simp only [checkCfgMux, firstFault_eq_none, List.forall_mem_cons, checkImpl_eq_none] at h
  exact ⟨h.2.1, h.2.2.1⟩

/-- The sequence of an accepted command: at most four accesses, each one the engine may make, and its `FINISH`. -/
theorem commandSeq_eq_accesses_append_finish (P : Params) (i : Instr) (h : commandFault P i = none) :
    ∃ ops r0 r1, commandSeq P i = ops ++ [.finish r0 r1] ∧ ops.length ≤ 4 ∧ ∀ op ∈ ops, EngineAccess P op := by
  have port := engineAccess_wr_port P
  cases i with
  | rslvBit p _ | rslvCfg p | rslvMux p => exact ⟨[], _, _, rfl, by simp, by simp⟩
  | setlvl p l =>
    refine ⟨[_], _, _, rfl, by simp, List.forall_mem_singleton.2 ?_⟩
    cases l with
    | true => exact port (bankOf p) (.outset (bankOf p)) _ rfl (by simp)
    | false => exact port (bankOf p) (.outclr (bankOf p)) _ rfl (by simp)
  | getlvl p => exact ⟨[_], _, _, rfl, by simp, List.forall_mem_singleton.2 (engineAccess_rd_input P _)⟩
  | getcfg p =>
    exact ⟨[_], _, _, rfl, by simp,
      List.forall_mem_singleton.2 (engineAccess_rd_cfg P p (cfgLoc_implemented_of_checkCfg P p h))⟩
  | getmux p =>
    exact ⟨[_], _, _, rfl, by simp,
      List.forall_mem_singleton.2 (engineAccess_rd_mux P p (muxLoc_implemented_of_checkMux P p h))⟩
  | cfgOut p | cfgIn p =>
    have hc := cfgw_accesses P p (cfgIn P) (cfgLoc_implemented_of_checkCfg P p h)
    exact ⟨_, _, _, rfl, by simp [cfgw], List.forall_mem_cons.2 ⟨port (bankOf p) _ _ rfl (by simp), hc⟩⟩
  | cfgPd p | cfgPu p =>
    have hc := cfgw_accesses P p (cfgPull P) (cfgLoc_implemented_of_checkCfg P p h)
    exact ⟨_, _, _, rfl, by simp [cfgw], List.forall_mem_cons.2 ⟨port (bankOf p) _ _ rfl (by simp),
      List.forall_mem_cons.2 ⟨port (bankOf p) _ _ rfl (by simp), hc⟩⟩⟩
  | cfgPf p _ | cfgPfa p _ | cfgAn p =>
    have hc := implemented_of_checkCfgMux P p h
    exact ⟨_, _, _, rfl, by simp [muxw, cfgw], muxw_append_cfgw_accesses P p _ _ hc⟩

/-- Settles O51. -/
theorem engineReachesOnlyPortsAndPackedRegisters : Obligations.EngineReachesOnlyPortsAndPackedRegisters :=
  commandSeq_eq_accesses_append_finish

/-! ## A sound engine's turn always answers (10_state.md R40, 60_exceptions.md R189, R191) -/

/-- A location that exists takes every write. -/
theorem bankWrite_answers (l : BankLoc) (v : Word) (s : State) (h : implemented s.params l = true) :
    ∃ t, bankWrite l v s = .next t := by
  cases l with
  | pmux b k => exact ⟨_, if_pos h⟩
  | pincfg b k => exact ⟨_, if_pos h⟩
  | _ b => exact ⟨_, rfl⟩

/-- Every access the engine may make is answered. -/
theorem perform_engineAccess_answers (op : MicroOp) (s : State) (hP : ParamsOk s.params)
    (h : EngineAccess s.params op) : ∃ t, perform op s = .next t := by
  obtain ⟨l, himpl, ⟨v, b, rfl, -⟩ | ⟨rfl, b, k, m, hl⟩ | ⟨pos, n, v, b, k, m, rfl, -⟩⟩ := h
  · rw [perform_wr _ s rfl hP]
    exact bankWrite_answers l v s himpl
  · suffices hread : ∃ w s', bankRead l s = .next (w, s') by
      obtain ⟨w, s', hr⟩ := hread
      exact ⟨_, perform_rd _ s s' w rfl hP l hr⟩
    simp only [List.mem_cons, List.not_mem_nil, or_false] at hl
    obtain rfl | rfl | rfl := hl
    · exact ⟨_, _, rfl⟩
    · exact ⟨_, _, if_pos himpl⟩
    · exact ⟨_, _, if_pos himpl⟩
  · rw [perform_wrm _ s rfl hP]
    exact bankWrite_answers l _ s himpl

/-- Each micro-operation of an accepted command is its `FINISH` or an access the engine may make. -/
theorem mem_commandSeq (P : Params) (i : Instr) (h : commandFault P i = none) (op : MicroOp)
    (hop : op ∈ commandSeq P i) : EngineAccess P op ∨ ∃ r0 r1, op = .finish r0 r1 := by
  obtain ⟨ops, r0, r1, hseq, -, hops⟩ := commandSeq_eq_accesses_append_finish P i h
  rw [hseq, List.mem_append, List.mem_singleton] at hop
  exact hop.imp (hops op) fun e => ⟨r0, r1, e⟩

/-- In a sound BUSY state `SEQ` is a rest, never empty, of the sequence of an accepted command (R21, R27). -/
theorem seq_of_sound_busy (s : State) (hs : StateOk s) (hb : s.st = .busy) :
    s.seq ≠ [] ∧ ∃ i, commandFault s.params i = none ∧ s.seq <:+ commandSeq s.params i := by
  obtain ⟨-, -, hengine, -⟩ := hs
  obtain ⟨-, hne, i, -, hf, hsuf⟩ := (engineOk_iff_of_busy s hb).1 hengine
  exact ⟨hne, i, hf, hsuf⟩

theorem microStep_answers (s : State) (hs : StateOk s) (hb : s.st = .busy) : ∃ t, microStep s = .next t := by
  obtain ⟨hne, i, hf, hsuf⟩ := seq_of_sound_busy s hs hb
  obtain ⟨op, rest, hseq⟩ := List.exists_cons_of_ne_nil hne
  have hop : op ∈ commandSeq s.params i := hsuf.mem (hseq ▸ List.mem_cons_self ..)
  simp only [microStep, hseq]
  rcases mem_commandSeq s.params i hf op hop with ha | ⟨r0, r1, rfl⟩
  · obtain ⟨hparams, -⟩ := hs
    exact perform_engineAccess_answers op (s.withSeq rest) hparams ha
  · exact ⟨_, rfl⟩

theorem issue_answers (w : Word) (s : State) : ∃ t, issue w s = .next t := by
  rcases issue_cases w s with ⟨_, _, h⟩ | ⟨_, _, _, h⟩ <;> exact ⟨_, h⟩

theorem engineTurn_answers (s : State) (hs : StateOk s) : ∃ t, engineTurn s = .next t := by
  cases hst : s.st with
  | busy => rw [engineTurn_of_busy s hst]; exact microStep_answers s hs hst
  | idle =>
    cases hh : s.held with
    | nil => exact ⟨_, engineTurn_of_idle_nil s hst hh⟩
    | cons g gs => rw [engineTurn_of_idle_cons s g gs hst hh]; exact issue_answers _ _
  | fault => exact ⟨_, engineTurn_of_fault s hst⟩

/-- A turn that is not an access always answers in a sound state. -/
theorem takeTurn_answers (a : Turn) (s : State) (hs : StateOk s) (ha : a.accesses = false) :
    ∃ t, takeTurn a s = .next t := by
  cases a with
  | engine => exact engineTurn_answers s hs
  | engineReset d => exact ⟨_, rfl⟩
  | platformReset d => exact ⟨_, rfl⟩
  | hostRead _ _ _ | hostWrite _ _ _ _ | busRead _ _ _ | busWrite _ _ _ _ => cases ha

/-- The next turn is the engine's unless the agenda begins with another agent's turn that need not wait. -/
theorem engineNext_iff_of_cons (s : State) (a : Turn) (rest : List Turn) (h : s.agenda = a :: rest) :
    EngineNext s ↔ a = .engine ∨ s.waits a = true := by
  rw [waits_iff, EngineNext, h]
  simp

/-- Settles O38: the engine's turn and the resets answer, so the turn that stops is an access that was taken. -/
theorem onlyOutsideAccessesStop : Obligations.OnlyOutsideAccessesStop := by
  intro s hs hstop
  refine ⟨?_, engineTurn_answers s hs⟩
  rcases step_cases s with ⟨h, -⟩ | ⟨a, rest, hag, hw, h⟩
  · obtain ⟨t, ht⟩ := engineTurn_answers s hs
    exact absurd (h.trans ht) (hstop t)
  · have hacc : a.accesses = true := by
      by_contra hn
      obtain ⟨t, ht⟩ := takeTurn_answers a { s with agenda := rest } hs (Bool.eq_false_iff.2 hn)
      exact hstop t (h.trans ht)
    refine ⟨a, rest, hag, hacc, hw, ?_⟩
    rw [engineNext_iff_of_cons s a rest hag, hw]
    rintro (rfl | hf)
    · cases hacc
    · cases hf

end Sys2Proof.Machine
end

section
/-! PROOFS of 10_state.md R21, R23 to R25: the engine's registers over every step. `EngineMove` lists what a step can do to them,
`step_move` says that nothing else happens, and the statements about `ST`, `STATUS` and the responses are read off it. -/

namespace Sys2Proof.Machine

/-- The engine's registers of R20, and the parameters, are the same in both states. -/
structure EngineKept (s t : State) : Prop where
  params : t.params = s.params
  st : t.st = s.st
  cmd : t.cmd = s.cmd
  errcode : t.errcode = s.errcode
  rsp0 : t.rsp0 = s.rsp0
  rsp1 : t.rsp1 = s.rsp1
  lat : t.lat = s.lat
  seq : t.seq = s.seq

/-- What a step from `s` to `t` can do to the engine's registers (R21, R24, R25, R30, R70). -/
inductive EngineMove (s t : State) : Prop
  /-- A reset (R42). -/
  | reset (hnext : ResetNext s) (hst : t.st = .idle)
  /-- The engine's `FINISH`. -/
  | finish (hnext : EngineNext s) (hb : s.st = .busy) (r0 : Resp0) (r1 : Word) (ops : List MicroOp)
      (hseq : s.seq = .finish r0 r1 :: ops) (h0 : t.rsp0 = r0.eval s.lat) (h1 : t.rsp1 = r1) (hst : t.st = .idle)
  /-- An access of the engine. -/
  | access (hb : s.st = .busy) (h0 : t.rsp0 = s.rsp0) (h1 : t.rsp1 = s.rsp1) (hst : t.st = .busy)
  /-- The issue of a word that is accepted. -/
  | accept (hi : s.st = .idle) (i : Instr) (hd : decode t.cmd = .cmd i) (hf : commandFault s.params i = none)
      (h0 : t.rsp0 = s.rsp0) (h1 : t.rsp1 = s.rsp1) (hst : t.st = .busy)
  /-- The issue of a word that faults. -/
  | fault (hi : s.st = .idle) (c : FaultCode) (hf : wordFault s.params t.cmd = some c)
      (h0 : t.rsp0 = s.rsp0) (h1 : t.rsp1 = s.rsp1) (hst : t.st = .fault)
  /-- Everything else. -/
  | kept (h : EngineKept s t)

section

variable {s u t : State}

/-- Issue on a state whose engine is that of `s`. -/
theorem issue_move (w : Word) (hu : EngineKept s u) (hi : s.st = .idle) (e : issue w u = .next t) : EngineMove s t := by
  rcases issue_cases w u with ⟨c, hf, h⟩ | ⟨i, hd, hf, h⟩ <;> rw [h] at e <;> cases e <;> rw [hu.params] at hf
  · exact .fault hi c hf hu.rsp0 hu.rsp1 rfl
  · exact .accept hi i hd hf hu.rsp0 hu.rsp1 rfl

/-- A micro-operation on a state whose engine is that of `s`. -/
theorem microStep_move (hu : EngineKept s u) (hnext : EngineNext s) (hb : s.st = .busy) (e : microStep u = .next t) :
    EngineMove s t := by
  unfold microStep at e
  split at e
  · rename_i op ops hseq
    rcases perform_cases op _ t e with ⟨_, rfl⟩ | ⟨_, rfl | rfl⟩ | ⟨r0, r1, rfl, rfl⟩
    · exact .access hb hu.rsp0 hu.rsp1 (hu.st.trans hb)
    · exact .access hb hu.rsp0 hu.rsp1 (hu.st.trans hb)
    · exact .access hb hu.rsp0 hu.rsp1 (hu.st.trans hb)
    · exact .finish hnext hb r0 r1 ops (hu.seq.symm.trans hseq) (congrArg r0.eval hu.lat) rfl rfl
  · cases e

/-- The engine's turn on a state whose engine is that of `s`. -/
theorem engineTurn_move (hu : EngineKept s u) (hnext : EngineNext s) (e : engineTurn u = .next t) : EngineMove s t := by
  cases hst : u.st with
  | busy =>
    rw [engineTurn_of_busy u hst] at e
    exact microStep_move hu hnext (hu.st.symm.trans hst) e
  | idle =>
    cases hh : u.held with
    | nil =>
      rw [engineTurn_of_idle_nil u hst hh] at e
      cases e
      exact .kept hu
    | cons g gs =>
      rw [engineTurn_of_idle_cons u g gs hst hh] at e
      have hu' : EngineKept s { u with held := gs } := { hu with }
      exact issue_move g.word hu' (hu.st.symm.trans hst) e
  | fault =>
    rw [engineTurn_of_fault u hst] at e
    cases e
    exact .kept { hu with }

/-- An access of another agent moves the engine only by issuing a word (R30, R39). -/
theorem outsideAccess_move (a : Turn) (hu : EngineKept s u) (hr : ∀ d, a ≠ .engineReset d) (hp : ∀ d, a ≠ .platformReset d)
    (he : a ≠ .engine) (e : takeTurn a u = .next t) : EngineMove s t := by
  rcases access_cases a u t e hr hp he with
    ⟨_, _, _, w, _, ⟨hi, _, h⟩ | ⟨_, rfl⟩ | rfl⟩ | ⟨_, rfl⟩ | ⟨_, _, _, _, _, _, _, rfl⟩ | ⟨_, rfl | rfl⟩
  · exact issue_move w hu (hu.st.symm.trans hi) h
  all_goals exact .kept { hu with }

end

/-- Every step is one of the moves. -/
theorem step_move (s t : State) (e : step s = .next t) : EngineMove s t := by
  have hself : EngineKept s s := ⟨rfl, rfl, rfl, rfl, rfl, rfl, rfl, rfl⟩
  rcases step_cases s with ⟨h, hag⟩ | ⟨a, rest, hag, hw, h⟩ <;> rw [h] at e
  · refine engineTurn_move hself ?_ e
    rcases hag with hnil | ⟨a, rest, hag, hw⟩
    · exact .inl hnil
    · exact (engineNext_iff_of_cons s a rest hag).2 (.inr hw)
  · have hu : EngineKept s { s with agenda := rest } := { hself with }
    cases a with
    | engine => exact engineTurn_move hu ((engineNext_iff_of_cons s _ rest hag).2 (.inl rfl)) e
    | engineReset d => cases e; exact .reset ⟨_, rest, hag, rfl⟩ rfl
    | platformReset d => cases e; exact .reset ⟨_, rest, hag, rfl⟩ rfl
    | hostRead ctx addr n => exact outsideAccess_move (.hostRead ctx addr n) hu nofun nofun nofun e
    | hostWrite ctx addr n v => exact outsideAccess_move (.hostWrite ctx addr n v) hu nofun nofun nofun e
    | busRead who addr n => exact outsideAccess_move (.busRead who addr n) hu nofun nofun nofun e
    | busWrite who addr n v => exact outsideAccess_move (.busWrite who addr n v) hu nofun nofun nofun e

/-- Settles O46: of the moves, only a reset and a `FINISH` change a response. -/
theorem responsesChangeOnlyAtFinish : Obligations.ResponsesChangeOnlyAtFinish := by
  intro s t e hne
  have unchanged (h0 : t.rsp0 = s.rsp0) (h1 : t.rsp1 = s.rsp1) : False := hne.elim (· h0) (· h1)
  cases step_move s t e with
  | reset hnext => exact .inl hnext
  | finish hnext hb r0 r1 ops hseq h0 h1 hst => exact .inr ⟨hnext, hb, r0, r1, ops, hseq, h0, h1, hst⟩
  | access _ h0 h1 => exact (unchanged h0 h1).elim
  | accept _ _ _ _ h0 h1 => exact (unchanged h0 h1).elim
  | fault _ _ _ h0 h1 => exact (unchanged h0 h1).elim
  | kept h => exact (unchanged h.rsp0 h.rsp1).elim

/-- Settles O47. -/
theorem sequencerTransitionsAreTheFive : Obligations.SequencerTransitionsAreTheFive := by
  intro s t e
  cases step_move s t e with
  | kept h => exact .inl h.st
  | access hb _ _ hst => exact .inl (hst.trans hb.symm)
  | accept hi i hd hf _ _ hst => exact .inr (.inl ⟨hi, hst, i, hd, hf⟩)
  | fault hi c hf _ _ hst => exact .inr (.inr (.inl ⟨hi, hst, c, hf⟩))
  | finish hnext hb r0 r1 ops hseq _ _ hst => exact .inr (.inr (.inr (.inl ⟨hb, hst, hnext, r0, r1, ops, hseq⟩)))
  | reset hnext hst => exact .inr (.inr (.inr (.inr ⟨hst, hnext⟩)))

/-! ## `STATUS` (10_state.md R23) -/

theorem getLsbD_statusWord (s : State) (i : Nat) : (statusWord s).getLsbD i
    = if i = 0 then decide (s.st = .busy) else if i = 1 then decide (s.st = .fault)
      else if 4 ≤ i ∧ i < 8 then decide (s.st = .fault) && s.errcode.getLsbD (i - 4) else false := by
  have herr (j : Nat) : (errcodeFlag s).getLsbD j = (decide (s.st = .fault) && s.errcode.getLsbD j) := by
    by_cases h : s.st = .fault <;> simp [errcodeFlag, h]
  simp only [statusWord, busyFlag, errFlag, BitVec.getLsbD_or, BitVec.getLsbD_shiftLeft, BitVec.getLsbD_setWidth,
    BitVec.getLsbD_ofBool, herr]
  by_cases h : i < 8
  · interval_cases i <;> simp <;> rfl
  · have h0 : i ≠ 0 := by omega
    have h1 : i ≠ 1 := by omega
    have h1' : i - 1 ≠ 0 := by omega
    have hcode : s.errcode.getLsbD (i - 4) = false := BitVec.getLsbD_of_ge _ _ (by omega)
    simp [h, h0, h1, h1', hcode]

/-- `STATUS.ERR` is 1 exactly in FAULT. -/
theorem statusWord_err (s : State) : (statusWord s).getLsbD 1 = true ↔ s.st = .fault := by
  rw [getLsbD_statusWord]; simp

/-- `STATUS.BUSY` is 0 exactly outside BUSY. -/
theorem statusWord_not_busy (s : State) : (statusWord s).getLsbD 0 = false ↔ s.st ≠ .busy := by
  rw [getLsbD_statusWord]; simp

/-- Settles O42: of the moves that start in FAULT, only a reset leaves it. -/
theorem statusShowsTheEngine : Obligations.StatusShowsTheEngine := by
  refine ⟨getLsbD_statusWord, fun s t herr e hnr => ?_⟩
  rw [statusWord_err] at herr ⊢
  cases step_move s t e with
  | kept h => exact h.st.trans herr
  | reset hnext => exact absurd hnext hnr
  | fault _ _ _ _ _ hst => exact hst
  | access hb => rw [herr] at hb; cases hb
  | finish _ hb => rw [herr] at hb; cases hb
  | accept hi => rw [herr] at hi; cases hi

end Sys2Proof.Machine
end

section
/-! PROOFS of 10_state.md R27, R30 and 70_reset_and_hazards.md R222: a BUSY engine left alone. -/

namespace Sys2Proof.Machine

theorem seq_length_le_five (s : State) (hs : StateOk s) (hb : s.st = .busy) : s.seq.length ≤ 5 := by
  obtain ⟨-, i, hf, hsuf⟩ := seq_of_sound_busy s hs hb
  obtain ⟨ops, r0, r1, hseq, hlen, -⟩ := commandSeq_eq_accesses_append_finish s.params i hf
  have := hsuf.length_le
  rw [hseq, List.length_append, List.length_singleton] at this
  omega

/-- A micro-operation leaves the rest of `SEQ`, `CMD` and the agenda, and only a `FINISH` leaves BUSY (R21, R27). -/
theorem perform_keeps_seq_cmd_agenda (op : MicroOp) (s t : State) (e : perform op s = .next t) :
    t.seq = s.seq ∧ t.cmd = s.cmd ∧ t.agenda = s.agenda ∧ (t.st = s.st ∨ ∃ r0 r1, op = .finish r0 r1 ∧ t.st = .idle) := by
  rcases perform_cases op s t e with ⟨_, rfl⟩ | ⟨_, rfl | rfl⟩ | ⟨r0, r1, hf, rfl⟩
  · exact ⟨rfl, rfl, rfl, .inl rfl⟩
  · exact ⟨rfl, rfl, rfl, .inl rfl⟩
  · exact ⟨rfl, rfl, rfl, .inl rfl⟩
  · exact ⟨rfl, rfl, rfl, .inr ⟨r0, r1, hf, rfl⟩⟩

/-- The step of a sound BUSY engine left alone: the head of `SEQ` is gone, and the engine is IDLE exactly when nothing is
left. -/
theorem step_alone_busy_next (s : State) (hs : StateOk s) (ha : Alone s) (hb : s.st = .busy) (op : MicroOp)
    (rest : List MicroOp) (hseq : s.seq = op :: rest) :
    ∃ t, step s = .next t ∧ StateOk t ∧ t.seq = rest ∧ t.st = (if rest = [] then .idle else .busy)
      ∧ t.cmd = s.cmd ∧ t.params = s.params ∧ t.held = s.held ∧ Alone t := by
  obtain ⟨t, ht⟩ := microStep_answers s hs hb
  obtain ⟨hok, hparams⟩ := microStep_keeps_sound s t hs hb ht
  have e : perform op (s.withSeq rest) = .next t := by simpa only [microStep, hseq] using ht
  obtain ⟨hrest, hcmd, hag, hst⟩ := perform_keeps_seq_cmd_agenda op _ t e
  have hheld : t.held = s.held := perform_keeps_held op (s.withSeq rest) t e
  rw [State.withSeq_seq] at hrest
  refine ⟨t, (step_alone_busy s ha hb).trans ht, hok, hrest, ?_, hcmd, hparams, hheld, hag.trans ha⟩
  rcases hst with hst | ⟨r0, r1, rfl, hst⟩
  · have hbusy : t.st = .busy := hst.trans hb
    have hne : rest ≠ [] := hrest ▸ (seq_of_sound_busy t hok hbusy).1
    rw [if_neg hne, hbusy]
  · obtain ⟨-, i, -, hsuf⟩ := seq_of_sound_busy s hs hb
    rw [hseq] at hsuf
    rw [if_pos ((rest_eq_nil_iff_finish s.params i _ rest hsuf).2 ⟨r0, r1, rfl⟩), hst]

/-- By induction on what is left of `SEQ`: that many steps end IDLE. -/
theorem run_seq_length (ops : List MicroOp) : ∀ s : State, StateOk s → Alone s → s.st = .busy → s.seq = ops →
    ∃ t, run ops.length s = .next t ∧ t.st = .idle ∧ t.seq = [] ∧ t.cmd = s.cmd ∧ t.params = s.params
      ∧ t.held = s.held ∧ Alone t := by
  induction ops with
  | nil =>
    intro s hs _ hb hseq
    exact absurd hseq (seq_of_sound_busy s hs hb).1
  | cons op rest ih =>
    intro s hs ha hb hseq
    obtain ⟨t, hstep, hok, hrest, hst, hcmd, hparams, hheld, hag⟩ := step_alone_busy_next s hs ha hb op rest hseq
    rw [List.length_cons, run_succ _ s t hstep]
    by_cases hnil : rest = []
    · rw [if_pos hnil] at hst
      exact ⟨t, by rw [hnil]; rfl, hst, hrest.trans hnil, hcmd, hparams, hheld, hag⟩
    · rw [if_neg hnil] at hst
      obtain ⟨u, hrun, hidle, hempty, hcmd', hparams', hheld', hag'⟩ := ih t hok hag hst hrest
      exact ⟨u, hrun, hidle, hempty, hcmd'.trans hcmd, hparams'.trans hparams, hheld'.trans hheld, hag'⟩

/-- Settles O48. -/
theorem busyEngineFinishesInItsLength : Obligations.BusyEngineFinishesInItsLength := by
  intro s hs ha hb
  obtain ⟨t, hrun, hst, hseq, hcmd, hparams, hheld, -⟩ := run_seq_length s.seq s hs ha hb rfl
  exact ⟨seq_length_le_five s hs hb, t, hrun, hst, hseq, hcmd, hparams, hheld⟩

theorem step_of_alone (s : State) (h : Alone s) : step s = engineTurn s := by
  simp only [step, nextTurn, h]

/-- Settles O49: the run of R222 ends alone and IDLE with the held writes untouched, so the next step is their issue. -/
theorem heldWriteIsIssuedNext : Obligations.HeldWriteIsIssuedNext := by
  intro s h hs hok ha hb hheld
  obtain ⟨t, hrun, hst, -, -, -, ht, hag⟩ := run_seq_length s.seq s hok ha hb rfl
  refine ⟨t, hrun, hst, ?_⟩
  rw [step_of_alone t hag, engineTurn_of_idle_cons t h hs hst (ht.trans hheld)]

end Sys2Proof.Machine
end

section
/-! PROOFS of 10_state.md R29, R30, R42, R43, 20_memory.md R73 and 60_exceptions.md R181: the resets and the host port. -/

namespace Sys2Proof.Machine

/-! ## Resets (10_state.md R42, R43) -/

/-- Settles O39. -/
theorem resetLeavesTheEngineIdle : Obligations.ResetLeavesTheEngineIdle :=
  ⟨rfl, rfl, rfl, rfl, rfl, rfl, rfl, by decide⟩

/-- Settles O40: a reset turn never waits, and `State.engineReset` is the update of R42. -/
theorem engineResetKeepsTheBank : Obligations.EngineResetKeepsTheBank :=
  fun s d rest ha => step_takes s (.engineReset d) rest ha rfl

/-- Settles O41: a reset turn never waits, and `State.platformReset` is the update of R42 with the bank of R43. -/
theorem platformResetRedrawsTheBank : Obligations.PlatformResetRedrawsTheBank :=
  fun s d rest ha => step_takes s (.platformReset d) rest ha rfl

/-! ## Issue (10_state.md R30, 60_exceptions.md R181) -/

theorem issue_of_cmd (w : Word) (s : State) (i : Instr) (hd : decode w = .cmd i) :
    issue w s = exec i { s with cmd := w } := by
  simp only [issue, hd]

@[simp] theorem tableWord_toNat (w : Word) : tableWord 32 w.toNat = w := by
  apply BitVec.eq_of_toNat_eq
  have := w.isLt
  rw [tableWord, BitVec.toNat_ofNat, Nat.mod_mod, Nat.mod_eq_of_lt this]

/-- Settles O31: both clauses are a host context's write to `CMD` in IDLE with nothing held, the second one placed by
`withFetchWord`. -/
theorem stepRunsTheDecodedCommand : Obligations.StepRunsTheDecodedCommand := by
  refine ⟨fun s c w rest i hidle hheld hag hd => ?_, fun s w i hd => ?_⟩
  · rw [step_hostWrite_cmd s c w rest hidle hheld hag, issue_of_cmd w _ i hd]
  · rw [State.withFetchWord, tableWord_toNat, step_hostWrite_cmd (placeCommand s w) 0 w s.agenda rfl rfl rfl,
      issue_of_cmd w _ i hd]
    rfl

/-! ## What a host access does (10_state.md R29, R30) -/

/-- Only the four offsets hold a register. -/
theorem hostReg?_eq_none (off : Word) (h : off ≠ 0x00 ∧ off ≠ 0x04 ∧ off ≠ 0x08 ∧ off ≠ 0x0C) : hostReg? off = none := by
  obtain ⟨h0, h4, h8, hC⟩ := h
  simp only [hostReg?, h0, h4, h8, hC, if_false]

theorem hostAccess?_of_width (P : Params) (off : Word) : hostAccess? P (P.engineBase + off) 4 = hostReg? off := by
  rw [hostAccess?, if_pos rfl, BitVec.add_comm, BitVec.add_sub_cancel]

theorem hostAccess?_eq_none (P : Params) (off : Word) (width : Nat)
    (h : width ≠ 4 ∨ (off ≠ 0x00 ∧ off ≠ 0x04 ∧ off ≠ 0x08 ∧ off ≠ 0x0C)) :
    hostAccess? P (P.engineBase + off) width = none := by
  by_cases hw : width = 4
  · subst hw
    rw [hostAccess?_of_width, hostReg?_eq_none off (h.resolve_left (absurd rfl))]
  · rw [hostAccess?, if_neg hw]

/-- The access of an agent with no write held is taken at once (20_memory.md R73). -/
theorem step_free (s : State) (a : Turn) (who : Agent) (rest : List Turn) (ha : s.agenda = a :: rest)
    (hm : a.madeBy = some who) (hf : Free s who) : step s = takeTurn a { s with agenda := rest } :=
  step_takes s a rest ha (waits_of_free s a who hm hf)

section

variable (s : State) (c : Nat) (addr v : Word) (width : Nat) (r : HostReg)

theorem hostReadTurn_of_reg (h : hostAccess? s.params addr width = some r) :
    hostReadTurn addr width s = .next { s with hostData := some (hostRegValue s r) } := by
  rw [hostReadTurn, h]

theorem hostReadTurn_of_none (h : hostAccess? s.params addr width = none) :
    hostReadTurn addr width s = .refused .hostAccess := by
  rw [hostReadTurn, h]

theorem hostWriteTurn_of_cmd (h : hostAccess? s.params addr width = some .cmd) :
    hostWriteTurn c addr width v s = writeCmd c v s := by
  rw [hostWriteTurn, h]

theorem hostWriteTurn_of_readOnly (h : hostAccess? s.params addr width = some r) (hr : r ≠ .cmd) :
    hostWriteTurn c addr width v s = .next s := by
  rw [hostWriteTurn, h]
  cases r with
  | cmd => exact absurd rfl hr
  | status | rsp0 | rsp1 => rfl

theorem hostWriteTurn_of_none (h : hostAccess? s.params addr width = none) :
    hostWriteTurn c addr width v s = .refused .hostAccess := by
  rw [hostWriteTurn, h]

end

/-- Settles O45: no register is reached, so the turn, which does not wait, is refused. -/
theorem otherHostAccessesAreRefused : Obligations.OtherHostAccessesAreRefused := by
  intro s c rest off v width h hf
  have hnone := hostAccess?_eq_none s.params off width h
  refine ⟨fun ha => ?_, fun ha => ?_⟩
  · exact (step_free s _ _ rest ha rfl hf).trans (hostReadTurn_of_none { s with agenda := rest } _ _ hnone)
  · exact (step_free s _ _ rest ha rfl hf).trans (hostWriteTurn_of_none { s with agenda := rest } c _ v _ hnone)

/-- The read of a free host context at one of the four offsets. -/
theorem step_hostRead (s : State) (c : Nat) (rest : List Turn) (off : Word) (r : HostReg) (hr : hostReg? off = some r)
    (ha : s.agenda = .hostRead c (s.params.engineBase + off) 4 :: rest) (hf : Free s (.host c)) :
    step s = .next { s with agenda := rest, hostData := some (hostRegValue s r) } :=
  (step_free s _ _ rest ha rfl hf).trans
    (hostReadTurn_of_reg { s with agenda := rest } _ _ r ((hostAccess?_of_width s.params off).trans hr))

/-- Outside BUSY a sound engine has nothing left to perform (R21, R27). -/
theorem seq_eq_nil_of_not_busy (s : State) (h : EngineOk s) (hb : s.st ≠ .busy) : s.seq = [] := by
  cases hst : s.st with
  | busy => exact absurd hst hb
  | idle => exact ((engineOk_iff_of_idle s hst).1 h).1
  | fault => exact ((engineOk_iff_of_fault s hst).1 h).1

/-- Settles O43. -/
theorem hostReadsReturnTheRegister : Obligations.HostReadsReturnTheRegister := by
  refine ⟨fun s c rest off v h ha hf => ?_, fun s t c rest v hs ha hf e hv hbusy => ?_⟩
  · rcases h with ⟨rfl, rfl⟩ | ⟨rfl, rfl⟩ | ⟨rfl, rfl⟩ | ⟨rfl, rfl⟩
    · exact step_hostRead s c rest _ .cmd rfl ha hf
    · exact step_hostRead s c rest _ .status rfl ha hf
    · exact step_hostRead s c rest _ .rsp0 rfl ha hf
    · exact step_hostRead s c rest _ .rsp1 rfl ha hf
  · rw [step_hostRead s c rest _ .status rfl ha hf] at e
    cases e
    cases hv
    obtain ⟨-, -, hengine, -⟩ := hs
    have hst := (statusWord_not_busy s).1 hbusy
    exact ⟨hst, seq_eq_nil_of_not_busy s hengine hst, hf⟩

/-! ## What a write to `CMD` does in each state of the sequencer (10_state.md R30, log 5) -/

theorem writeCmd_of_idle_nil (c : Nat) (w : Word) (s : State) (h : s.st = .idle) (hh : s.held = []) :
    writeCmd c w s = issue w s := by
  simp only [writeCmd, h, hh, if_true]

theorem writeCmd_of_held (c : Nat) (w : Word) (s : State) (h : s.st = .busy ∨ (s.st = .idle ∧ s.held ≠ [])) :
    writeCmd c w s = .next (holdWrite c w s) := by
  rcases h with hb | ⟨hi, hh⟩
  · simp only [writeCmd, hb]
  · simp only [writeCmd, hi, hh, if_false]

theorem writeCmd_of_fault (c : Nat) (w : Word) (s : State) (h : s.st = .fault) : writeCmd c w s = .next s := by
  simp only [writeCmd, h]

/-- The write of a free host context to `CMD`. -/
theorem step_hostWrite_cmd_of_free (s : State) (c : Nat) (rest : List Turn) (v : Word)
    (ha : s.agenda = .hostWrite c (s.params.engineBase + 0x00) 4 v :: rest) (hf : Free s (.host c)) :
    step s = writeCmd c v { s with agenda := rest } :=
  (step_free s _ _ rest ha rfl hf).trans
    (hostWriteTurn_of_cmd { s with agenda := rest } c _ v _ (hostAccess?_of_width s.params 0x00))

/-- The write of a free host context to a read-only register is ignored. -/
theorem step_hostWrite_readOnly (s : State) (c : Nat) (rest : List Turn) (off v : Word) (r : HostReg)
    (hr : hostReg? off = some r) (hne : r ≠ .cmd)
    (ha : s.agenda = .hostWrite c (s.params.engineBase + off) 4 v :: rest) (hf : Free s (.host c)) :
    step s = .next { s with agenda := rest } :=
  (step_free s _ _ rest ha rfl hf).trans (hostWriteTurn_of_readOnly { s with agenda := rest } c _ v _ r
    ((hostAccess?_of_width s.params off).trans hr) hne)

/-- A turn that must wait stays, and the engine moves. -/
theorem step_of_waits (s : State) (a : Turn) (rest : List Turn) (ha : s.agenda = a :: rest) (hw : s.waits a = true) :
    step s = engineTurn s := by
  simp only [step, nextTurn, ha, hw, if_true]

/-- Settles O44. -/
theorem hostWritesIssueHoldOrVanish : Obligations.HostWritesIssueHoldOrVanish := by
  refine ⟨fun s c rest off v ha hf => ⟨?_, ?_, ?_, ?_⟩, fun s h hs hheld => ⟨?_, ?_, ?_, ?_⟩,
    fun s a rest h ha hmem hm => ?_⟩
  · rintro rfl hidle hnil
    exact (step_hostWrite_cmd_of_free s c rest v ha hf).trans (writeCmd_of_idle_nil c v { s with agenda := rest } hidle hnil)
  · rintro rfl hst
    exact (step_hostWrite_cmd_of_free s c rest v ha hf).trans (writeCmd_of_held c v { s with agenda := rest } hst)
  · rintro rfl hfault
    exact (step_hostWrite_cmd_of_free s c rest v ha hf).trans (writeCmd_of_fault c v { s with agenda := rest } hfault)
  · rintro (rfl | rfl | rfl)
    · exact step_hostWrite_readOnly s c rest _ v .status rfl nofun ha hf
    · exact step_hostWrite_readOnly s c rest _ v .rsp0 rfl nofun ha hf
    · exact step_hostWrite_readOnly s c rest _ v .rsp1 rfl nofun ha hf
  · exact fun hidle => engineTurn_of_idle_cons s h hs hidle hheld
  · intro hfault
    rw [engineTurn_of_fault s hfault, hheld, List.tail_cons]
  · exact step_of_alone s
  · exact fun rest ha => step_takes s .engine rest ha rfl
  · have hstep := step_of_waits s a rest ha ((waits_iff s a).2 ⟨h, hmem, hm⟩)
    exact ⟨hstep, fun t e => engineTurn_keeps_outside s t (hstep.symm.trans e)⟩

end Sys2Proof.Machine
end

section
/-! PROOFS of 10_state.md R31 to R41: the register bank as another agent sees it. -/

namespace Sys2Proof.Machine

/-! ## A bank access of another agent (10_state.md R39, R62) -/

theorem busReadTurn_of_width (a : Word) (s : State) (w : Word) (s' : State) (h : memRead a s = .next (w, s')) :
    busReadTurn a 4 s = .next { s' with busData := some w } := by
  simp only [busReadTurn, if_true, h]

theorem busReadTurn_of_refused (a : Word) (s : State) (r : Refusal) (h : memRead a s = .refused r) :
    busReadTurn a 4 s = .refused r := by
  simp only [busReadTurn, if_true, h]

theorem busWriteTurn_of_width (a v : Word) (s : State) : busWriteTurn a 4 v s = memWrite a v s := if_pos rfl

/-- An answered read is 32 bits wide and records the word the bank gave. -/
theorem busReadTurn_next (a : Word) (n : Nat) (s t : State) (e : busReadTurn a n s = .next t) :
    ∃ w s', memRead a s = .next (w, s') ∧ t = { s' with busData := some w } := by
  unfold busReadTurn at e
  split at e
  · rcases memRead_cases a s with ⟨w, h | h⟩ | ⟨r, h⟩ <;> rw [h] at e <;> cases e
    · exact ⟨w, _, h, rfl⟩
    · exact ⟨w, _, h, rfl⟩
  · cases e

/-! ## The plain registers and the ports (10_state.md R32 to R36) -/

/-- Settles O52. -/
theorem plainRegistersAreReadAndReplacedWhole : Obligations.PlainRegistersAreReadAndReplacedWhole := by
  refine ⟨fun s b v who rest hP hf => ?_, fun s t who a n rest hf ha e => ?_⟩
  · have hwrite (l : BankLoc) (ha : s.agenda = .busWrite who (busAddr s.params (regOffset s.params l)) 4 v :: rest) :
        step s = bankWrite l v { s with agenda := rest } :=
      (step_free s _ who rest ha rfl hf).trans
        ((busWriteTurn_of_width _ v _).trans (memWrite_regOffset { s with agenda := rest } hP l v))
    have hread (l : BankLoc) (w : Word) (hr : bankRead l { s with agenda := rest } = .next (w, { s with agenda := rest }))
        (ha : s.agenda = .busRead who (busAddr s.params (regOffset s.params l)) 4 :: rest) :
        step s = .next { s with agenda := rest, busData := some w } :=
      (step_free s _ who rest ha rfl hf).trans (busReadTurn_of_width _ { s with agenda := rest } w _
        ((memRead_regOffset { s with agenda := rest } hP l).trans hr))
    exact ⟨hwrite (.dir b), hwrite (.out b), hread (.dir b) _ rfl, hread (.out b) _ rfl⟩
  · rw [step_free s _ who rest ha rfl hf] at e
    obtain ⟨w, s', hr, rfl⟩ := busReadTurn_next a n _ t e
    refine ⟨w, s', hr, ?_⟩
    rcases memRead_cases a { s with agenda := rest } with ⟨w', h | h⟩ | ⟨r, h⟩ <;> rw [h] at hr <;> cases hr
    · rfl
    · rfl

/-- Settles O53. -/
theorem setAndClearPortsTouchOnlyOneBits : Obligations.SetAndClearPortsTouchOnlyOneBits := by
  intro s b v hP
  refine ⟨memWrite_regOffset s hP (.dirset b) v, memWrite_regOffset s hP (.dirclr b) v,
    memWrite_regOffset s hP (.outset b) v, memWrite_regOffset s hP (.outclr b) v, fun l hl => ?_⟩
  rw [memRead_regOffset s hP l]
  simp only [List.mem_cons, List.not_mem_nil, or_false] at hl
  rcases hl with rfl | rfl | rfl | rfl <;> rfl

/-- Bit j of a read of `IN[b]` (R36). -/
theorem getLsbD_inputWord (P : Params) (B : Bank) (b : Fin 2) (draw : Word) (j : Fin 32) :
    (inputWord P B b draw).getLsbD j.val
      = if readsBack P B b j = true then B.out[b].getLsbD j.val else draw.getLsbD j.val := by
  rw [inputWord, getLsbD_wordOfBits, dif_pos j.isLt]

/-- The condition of R36, with the configuration byte named by its pin. -/
theorem readsBack_iff (P : Params) (B : Bank) (b : Fin 2) (j : Fin 32) : readsBack P B b j = true ↔
    B.dir[b].getLsbD j.val = true ∧ P.cfgImpl[b][cfgIndex j.val] = true
      ∧ (cfgOf (32 * b.val + j.val) B.pincfg[b][cfgIndex j.val]).getLsbD P.posInen.val = true
      ∧ (cfgOf (32 * b.val + j.val) B.pincfg[b][cfgIndex j.val]).getLsbD P.posPmuxen.val = false := by
  have hk : (⟨j.val / 4, by omega⟩ : Fin 8) = cfgIndex j.val := Fin.ext (by rw [cfgIndex_val]; simp only []; omega)
  have hshift : 8 * (j.val % 4) = cfgShift (32 * b.val + j.val) := by rw [cfgShift]; omega
  simp only [readsBack, hk, hshift, cfgOf, Bool.and_eq_true, Bool.not_eq_true', and_assoc]

/-- Settles O55. -/
theorem inputReadsBackOrDraws : Obligations.InputReadsBackOrDraws := by
  intro s b v hP
  refine ⟨⟨_, memRead_regOffset s hP (.input b), fun j => ?_⟩, memWrite_regOffset s hP (.input b) v⟩
  rw [getLsbD_inputWord]
  simp only [readsBack_iff]

/-! ## The packed registers (10_state.md R37, R38) -/

theorem bankWrite_pincfg (s : State) (b : Fin 2) (k : Fin 8) (v : Word) (h : s.params.cfgImpl[b][k] = true) :
    bankWrite (.pincfg b k) v s = .next (s.withBank (Bank.setPincfg s.params s.bank b k v)) := if_pos h

theorem bankWrite_pmux (s : State) (b : Fin 2) (k : Fin 4) (v : Word) (h : s.params.muxImpl[b][k] = true) :
    bankWrite (.pmux b k) v s = .next (s.withBank (s.bank.setPmux b k v)) := if_pos h

/-- What a read of a configuration register returns, whatever the bank holds by then. -/
theorem memRead_pincfg_withBank (s : State) (B : Bank) (b : Fin 2) (k : Fin 8) (hP : ParamsOk s.params)
    (h : s.params.cfgImpl[b][k] = true) :
    memRead (busAddr s.params (regOffset s.params (.pincfg b k))) (s.withBank B)
      = .next (pincfgWord s.params B b k s.drawWord, (s.withBank B).afterDraw) :=
  (memRead_regOffset (s.withBank B) hP (.pincfg b k)).trans (if_pos h)

/-- What a read of a multiplexer register returns, whatever the bank holds by then. -/
theorem memRead_pmux_withBank (s : State) (B : Bank) (b : Fin 2) (k : Fin 4) (hP : ParamsOk s.params)
    (h : s.params.muxImpl[b][k] = true) :
    memRead (busAddr s.params (regOffset s.params (.pmux b k))) (s.withBank B) = .next (B.pmux[b][k], s.withBank B) :=
  (memRead_regOffset (s.withBank B) hP (.pmux b k)).trans (if_pos h)

/-- A configuration register just written reads as the named bits of the word, with a draw in the reserved bits. -/
theorem pincfgWord_setPincfg (P : Params) (B : Bank) (b : Fin 2) (k : Fin 8) (v draw : Word) :
    pincfgWord P (Bank.setPincfg P B b k v) b k draw = (v &&& P.namedWord) ||| (draw &&& ~~~P.namedWord) := by
  rw [pincfgWord, Bank.setPincfg_get, if_pos ⟨rfl, rfl⟩, BitVec.and_assoc, BitVec.and_self]

/-- Settles O56. -/
theorem packedRegistersReadBack : Obligations.PackedRegistersReadBack := by
  intro s b k m v hP
  refine ⟨fun hk => ⟨s.withBank (Bank.setPincfg s.params s.bank b k v), ?_, ?_, fun b' k' hne => ?_, rfl, rfl, rfl, rfl⟩,
    fun hm => ⟨s.withBank (s.bank.setPmux b m v), ?_, ?_, fun b' m' hne => ?_, rfl, rfl, rfl, rfl⟩⟩
  · rw [memWrite_regOffset s hP, bankWrite_pincfg s b k v hk]
  · rw [memRead_pincfg_withBank s _ b k hP hk, pincfgWord_setPincfg]
  · rw [State.withBank_bank, Bank.setPincfg_get, if_neg (fun h => hne (by rw [h.1, h.2]))]
  · rw [memWrite_regOffset s hP, bankWrite_pmux s b m v hm]
  · rw [memRead_pmux_withBank s _ b m hP hm, Bank.setPmux_get, if_pos ⟨rfl, rfl⟩]
  · rw [State.withBank_bank, Bank.setPmux_get, if_neg (fun h => hne (by rw [h.1, h.2]))]

/-! ## Accesses outside the surface (10_state.md R31, R40, R41) -/

/-- The offset table is all that the surface depends on. -/
theorem regOffset_of_reference (P : Params) (h : P.offsets = Offsets.reference) (l : BankLoc) :
    regOffset P l = regOffset Params.reference l := by
  cases l <;> simp only [regOffset, h] <;> rfl

theorem locAt?_of_reference (P : Params) (h : P.offsets = Offsets.reference) (off : Word) :
    locAt? P off = locAt? Params.reference off := by
  simp only [locAt?, regOffset_of_reference P h]

/-- Where an access with the reference table is unlisted (R31, R41): above the surface, in a gap, past a bank's last register,
between two words. -/
abbrev OffSurface (off : Word) : Prop :=
  0x100 ≤ off.toNat ∨ off.toNat % 0x80 ∈ [0x0C, 0x1C, 0x24, 0x28, 0x2C] ∨ 0x60 ≤ off.toNat % 0x80 ∨ off.toNat % 4 ≠ 0

theorem allLocs_on_surface : ∀ l ∈ allLocs, ¬ OffSurface (regOffset Params.reference l) := by decide

theorem locAt?_of_offSurface (P : Params) (h : P.offsets = Offsets.reference) (off : Word) (hoff : OffSurface off) :
    locAt? P off = none := by
  rw [locAt?_of_reference P h, locAt?, List.find?_eq_none]
  intro l hl heq
  rw [beq_iff_eq] at heq
  exact allLocs_on_surface l hl (heq ▸ hoff)

theorem pincfg_offset_reference : ∀ (b : Fin 2) (k : Fin 8),
    BitVec.ofNat 32 (0x80 * b.val + 0x40 + 4 * k.val) = regOffset Params.reference (.pincfg b k) := by decide

theorem pmux_offset_reference : ∀ (b : Fin 2) (m : Fin 4),
    BitVec.ofNat 32 (0x80 * b.val + 0x30 + 4 * m.val) = regOffset Params.reference (.pmux b m) := by decide

/-- The bank finds a location at its offset in the reference table. -/
theorem locAt?_regOffset_reference (P : Params) (h : P.offsets = Offsets.reference) (l : BankLoc) :
    locAt? P (regOffset Params.reference l) = some l :=
  (locAt?_of_reference P h _).trans (locAt?_regOffset Params.reference resetIsSound.1 l)

theorem portBase_add_sub (P : Params) (off : Word) : P.portBase + off - P.portBase = off := by
  rw [BitVec.add_comm, BitVec.add_sub_cancel]

section

variable (s : State) (off v : Word)

theorem busTurns_of_unlisted (h : locAt? s.params off = none) :
    busReadTurn (s.params.portBase + off) 4 s = .refused .unlistedOffset
      ∧ busWriteTurn (s.params.portBase + off) 4 v s = .refused .unlistedOffset := by
  refine ⟨busReadTurn_of_refused _ s _ ?_, (busWriteTurn_of_width _ v s).trans ?_⟩
  · rw [memRead, portBase_add_sub, h]
  · rw [memWrite, portBase_add_sub, h]

/-- A location that refuses reads and writes refuses another agent's access at its offset. -/
theorem busTurns_of_refused (l : BankLoc) (r : Refusal) (h : locAt? s.params off = some l)
    (hr : bankRead l s = .refused r) (hw : bankWrite l v s = .refused r) :
    busReadTurn (s.params.portBase + off) 4 s = .refused r ∧ busWriteTurn (s.params.portBase + off) 4 v s = .refused r := by
  refine ⟨busReadTurn_of_refused _ s _ ?_, (busWriteTurn_of_width _ v s).trans ?_⟩
  · rw [memRead, portBase_add_sub, h]; exact hr
  · rw [memWrite, portBase_add_sub, h]; exact hw

end

/-- Settles O57. -/
theorem accessesOutsideTheSurfaceAreRefused : Obligations.AccessesOutsideTheSurfaceAreRefused := by
  intro s off v width h
  refine ⟨fun hw => ⟨if_neg hw, if_neg hw⟩, fun hoff => ?_, fun b => ⟨fun k hk hoff => ?_, fun m hm hoff => ?_⟩⟩
  · exact busTurns_of_unlisted s off v (locAt?_of_offSurface s.params h off hoff)
  · have habsent : ¬ s.params.cfgImpl[b][k] = true := Bool.eq_false_iff.1 hk
    rw [hoff, pincfg_offset_reference]
    exact busTurns_of_refused s _ v _ _ (locAt?_regOffset_reference s.params h _) (if_neg habsent) (if_neg habsent)
  · have habsent : ¬ s.params.muxImpl[b][m] = true := Bool.eq_false_iff.1 hm
    rw [hoff, pmux_offset_reference]
    exact busTurns_of_refused s _ v _ _ (locAt?_regOffset_reference s.params h _) (if_neg habsent) (if_neg habsent)

end Sys2Proof.Machine
end

section
/-! PROOFS of 20_memory.md R66, R67, R77: single-bit updates through the ports never lose each other, read-modify-writes of a
packed register can. -/

namespace Sys2Proof.Machine

/-- Two banks are equal when their registers are. -/
theorem Bank.ext_fin (A B : Bank) (hdir : ∀ c : Fin 2, A.dir[c] = B.dir[c]) (hout : ∀ c : Fin 2, A.out[c] = B.out[c])
    (hpincfg : A.pincfg = B.pincfg) (hpmux : A.pmux = B.pmux) : A = B := by
  have hd : A.dir = B.dir := Vector.ext fun i hi => hdir ⟨i, hi⟩
  have ho : A.out = B.out := Vector.ext fun i hi => hout ⟨i, hi⟩
  cases A; cases B
  subst hd ho hpincfg hpmux
  rfl

/-! ## Set and clear ports (10_state.md R33, R35, 20_memory.md R66) -/

/-- A register word after its set or clear port took `v`: the one bits of `v` have the port's level (R33, R35). -/
def portWord (level : Bool) (v w : Word) : Word := if level then w ||| v else w &&& ~~~v

/-- The bank after a set or clear port took `v`. -/
def Bank.driven (B : Bank) (l : BankLoc) (v : Word) : Bank :=
  match portRegister l with
  | .dir b => B.setDir b (portWord (portLevel l) v B.dir[b])
  | .out b => B.setOut b (portWord (portLevel l) v B.out[b])
  | _ => B

theorem getLsbD_portWord (level : Bool) (v w : Word) (i : Nat) (hi : i < 32) :
    (portWord level v w).getLsbD i = if v.getLsbD i = true then level else w.getLsbD i := by
  cases level with
  | true => rw [portWord, if_pos rfl, BitVec.getLsbD_or]; cases v.getLsbD i <;> simp
  | false =>
    rw [portWord, if_neg Bool.false_ne_true, BitVec.getLsbD_and, BitVec.getLsbD_not]
    cases v.getLsbD i <;> simp [hi]

/-- Disjoint updates of one word commute, whichever levels they give (R66). -/
theorem portWord_comm (level level' : Bool) (v v' w : Word) (h : v &&& v' = 0) :
    portWord level' v' (portWord level v w) = portWord level v (portWord level' v' w) := by
  apply BitVec.eq_of_getLsbD_eq
  intro i hi
  have hdisjoint : ¬ (v.getLsbD i = true ∧ v'.getLsbD i = true) := by
    rw [← Bool.and_eq_true, ← BitVec.getLsbD_and, h]
    simp
  simp only [getLsbD_portWord _ _ _ i hi]
  split_ifs with hv' hv
  · exact absurd ⟨hv, hv'⟩ hdisjoint
  all_goals rfl

theorem bankWrite_port (s : State) (b : Fin 2) (l : BankLoc) (v : Word) (h : l ∈ ports b) :
    bankWrite l v s = .next (s.withBank (s.bank.driven l v)) := by
  simp only [ports, List.mem_cons, List.not_mem_nil, or_false] at h
  rcases h with rfl | rfl | rfl | rfl <;> rfl

/-- A port drives the direction or the output register of its bank. -/
theorem portRegister_cases (b : Fin 2) (l : BankLoc) (h : l ∈ ports b) :
    (portRegister l = .dir b ∧ ∀ B, portTarget B l = B.dir[b])
      ∨ (portRegister l = .out b ∧ ∀ B, portTarget B l = B.out[b]) := by
  simp only [ports, List.mem_cons, List.not_mem_nil, or_false] at h
  rcases h with rfl | rfl | rfl | rfl
  · exact .inl ⟨rfl, fun _ => rfl⟩
  · exact .inl ⟨rfl, fun _ => rfl⟩
  · exact .inr ⟨rfl, fun _ => rfl⟩
  · exact .inr ⟨rfl, fun _ => rfl⟩

section

variable (B : Bank) (b b' : Fin 2) (l l' : BankLoc) (v w : Word)

theorem Bank.driven_dir (c : Fin 2) : (B.driven l v).dir[c]
    = if portRegister l = .dir c then portWord (portLevel l) v B.dir[c] else B.dir[c] := by
  unfold Bank.driven
  split
  case h_1 a ha =>
    rw [Bank.setDir_dir, Vector.get_set_fin, ha]
    by_cases hc : c = a
    · subst hc; simp
    · simp [hc, Ne.symm hc]
  case h_2 a ha => rw [Bank.setOut_dir, ha, if_neg nofun]
  case h_3 hdir _ => rw [if_neg (hdir c)]

theorem Bank.driven_out (c : Fin 2) : (B.driven l v).out[c]
    = if portRegister l = .out c then portWord (portLevel l) v B.out[c] else B.out[c] := by
  unfold Bank.driven
  split
  case h_1 a ha => rw [Bank.setDir_out, ha, if_neg nofun]
  case h_2 a ha =>
    rw [Bank.setOut_out, Vector.get_set_fin, ha]
    by_cases hc : c = a
    · subst hc; simp
    · simp [hc, Ne.symm hc]
  case h_3 _ hout => rw [if_neg (hout c)]

@[simp] theorem Bank.driven_pincfg : (B.driven l v).pincfg = B.pincfg := by
  unfold Bank.driven; split <;> rfl

@[simp] theorem Bank.driven_pmux : (B.driven l v).pmux = B.pmux := by
  unfold Bank.driven; split <;> rfl

/-- What a port's register holds after any port took a word: a port of another register leaves it alone. -/
theorem portTarget_driven (h' : l' ∈ ports b') : portTarget (B.driven l v) l'
    = if portRegister l = portRegister l' then portWord (portLevel l) v (portTarget B l') else portTarget B l' := by
  rcases portRegister_cases b' l' h' with ⟨hreg, htarget⟩ | ⟨hreg, htarget⟩
  · rw [htarget, htarget, hreg, Bank.driven_dir]
  · rw [htarget, htarget, hreg, Bank.driven_out]

/-- Two port writes leave the same bank in either order, unless they drive one register with a common bit (R66). -/
theorem Bank.driven_comm (h : portRegister l = portRegister l' → v &&& w = 0) :
    (B.driven l v).driven l' w = (B.driven l' w).driven l v := by
  refine Bank.ext_fin _ _ (fun c => ?_) (fun c => ?_) (by simp) (by simp)
  · simp only [Bank.driven_dir]
    split_ifs with hl' hl
    · exact portWord_comm _ _ v w _ (h (hl.trans hl'.symm))
    all_goals rfl
  · simp only [Bank.driven_out]
    split_ifs with hl' hl
    · exact portWord_comm _ _ v w _ (h (hl.trans hl'.symm))
    all_goals rfl

/-- The bits a port write names stand at the port's level when it is the later of two. -/
theorem getLsbD_portTarget_driven_last (hl : l ∈ ports b) (i : Nat) (hi : i < 32) (hv : v.getLsbD i = true) :
    (portTarget (B.driven l v) l).getLsbD i = portLevel l := by
  rw [portTarget_driven B b l l v hl, if_pos rfl, getLsbD_portWord _ _ _ i hi, if_pos hv]

end

/-- Settles O54: the two orders leave one bank, and in each order the later write's bits are as it gives them. -/
theorem portWritesToDifferentBitsNeverLoseEachOther : Obligations.PortWritesToDifferentBitsNeverLoseEachOther := by
  intro s b b' v w l l' hl hl' hdisjoint
  have hcomm := Bank.driven_comm s.bank l l' v w hdisjoint
  refine ⟨_, _, s.withBank ((s.bank.driven l v).driven l' w), bankWrite_port s b l v hl, bankWrite_port _ b' l' w hl',
    bankWrite_port s b' l' w hl', ?_, fun i hi hv => ?_, fun i hi hw => ?_⟩
  · rw [hcomm]
    exact bankWrite_port _ b l v hl
  · rw [State.withBank_bank, hcomm]
    exact getLsbD_portTarget_driven_last _ b l v hl i hi hv
  · exact getLsbD_portTarget_driven_last _ b' l' w hl' i hi hw

/-! ## A read-modify-write of a packed register raced by another agent (20_memory.md R67, R77) -/

/-- The engine's turn on the agenda, in BUSY: the head of `SEQ` is performed. -/
theorem step_engine_busy (s : State) (op : MicroOp) (ops : List MicroOp) (rest : List Turn) (hb : s.st = .busy)
    (hseq : s.seq = op :: ops) (ha : s.agenda = .engine :: rest) :
    step s = perform op { s with agenda := rest, seq := ops } := by
  rw [step_takes s .engine rest ha rfl, takeTurn, engineTurn_of_busy { s with agenda := rest } hb, microStep, hseq]
  rfl

/-- The engine's turn whose micro-operation is an `RD`: `LAT` takes the word the location gives. -/
theorem step_engine_rd (s s' : State) (l : BankLoc) (old : Word) (ops : List MicroOp) (rest : List Turn)
    (hP : ParamsOk s.params) (hb : s.st = .busy) (hseq : s.seq = .rd (regOffset s.params l) :: ops)
    (ha : s.agenda = .engine :: rest) (hr : bankRead l { s with agenda := rest, seq := ops } = .next (old, s')) :
    step s = .next (s'.withLat old) :=
  (step_engine_busy s _ ops rest hb hseq ha).trans
    (perform_rd s.params { s with agenda := rest, seq := ops } s' old rfl hP l hr)

/-- The engine's turn whose micro-operation is a `WRM`: the field merged into `LAT` is written. -/
theorem step_engine_wrm (s : State) (l : BankLoc) (pos n : Nat) (v : Word) (ops : List MicroOp) (rest : List Turn)
    (hP : ParamsOk s.params) (hb : s.st = .busy) (hseq : s.seq = .wrm (regOffset s.params l) pos n v :: ops)
    (ha : s.agenda = .engine :: rest) :
    step s = bankWrite l (insField s.lat pos n v) { s with agenda := rest, seq := ops } :=
  (step_engine_busy s _ ops rest hb hseq ha).trans
    (perform_wrm s.params { s with agenda := rest, seq := ops } rfl hP l pos n v)

/-- A bank write of a free agent is the write of the location at that address. -/
theorem step_busWrite_free (s : State) (l : BankLoc) (W : Word) (rest : List Turn) (who : Agent) (hP : ParamsOk s.params)
    (hf : Free s who) (ha : s.agenda = .busWrite who (busAddr s.params (regOffset s.params l)) 4 W :: rest) :
    step s = bankWrite l W { s with agenda := rest } := by
  rw [step_free s _ who rest ha rfl hf, takeTurn, busWriteTurn_of_width]
  exact memWrite_regOffset { s with agenda := rest } hP l W

/-- `RD`, another agent's write, `WRM` of any one location: `old` is the word the read gives, `draws` and `drawn` the supply
of draws it leaves, `put` what a write of the location does to the bank. The write-back merges into `old`, whatever was
written since (R67, R77). -/
theorem step_rd_step_busWrite_step_wrm (s : State) (l : BankLoc) (pos n : Nat) (v W old : Word) (ops : List MicroOp)
    (rest : List Turn) (who : Agent) (put : Bank → Word → Bank) (draws : List Word) (drawn : Nat)
    (hP : ParamsOk s.params) (hb : s.st = .busy) (hf : Free s who)
    (hread : ∀ agenda seq, bankRead l { s with agenda := agenda, seq := seq }
      = .next (old, { s with agenda := agenda, seq := seq, draws := draws, drawn := drawn }))
    (hput : ∀ u w, u.params = s.params → bankWrite l w u = .next (u.withBank (put u.bank w)))
    (hseq : s.seq = .rd (regOffset s.params l) :: .wrm (regOffset s.params l) pos n v :: ops)
    (ha : s.agenda = .engine :: .busWrite who (busAddr s.params (regOffset s.params l)) 4 W :: .engine :: rest) :
    ∃ s1 s2, step s = .next s1 ∧ step s1 = .next s2 ∧ s2.bank = put s.bank W
      ∧ step s2 = .next { s with
          agenda := rest, seq := ops, lat := old, bank := put (put s.bank W) (insField old pos n v),
          draws := draws, drawn := drawn } :=
  ⟨_, _, step_engine_rd s _ l old _ _ hP hb hseq ha (hread _ _),
    Eq.trans (step_busWrite_free _ l W _ who hP hf rfl) (hput _ W rfl), rfl,
    Eq.trans (step_engine_wrm _ l pos n v ops rest hP hb rfl rfl) (hput _ _ rfl)⟩

/-- A second write to a multiplexer register leaves nothing of the first. -/
theorem Bank.setPmux_setPmux (B : Bank) (b : Fin 2) (k : Fin 4) (v w : Word) :
    (B.setPmux b k v).setPmux b k w = B.setPmux b k w := by
  simp [Bank.setPmux]

/-- A second write to a configuration register leaves nothing of the first. -/
theorem Bank.setPincfg_setPincfg (P : Params) (B : Bank) (b : Fin 2) (k : Fin 8) (v w : Word) :
    Bank.setPincfg P (Bank.setPincfg P B b k v) b k w = Bank.setPincfg P B b k w := by
  simp [Bank.setPincfg]

/-- Settles O58: the write-back replaces the whole word by one made of what the read gave. -/
theorem updateBetweenReadAndWriteBackIsLost : Obligations.UpdateBetweenReadAndWriteBackIsLost := by
  refine ⟨fun s b k pos n v W ops rest who hP hk hb hf hseq ha => ?_,
    fun s b k pos n v W ops rest who hP hk hb hf hseq ha => ?_⟩
  · obtain ⟨s1, s2, hread, hrace, hbank, hmerge⟩ := step_rd_step_busWrite_step_wrm s (.pmux b k) pos n v W
      s.bank.pmux[b][k] ops rest who (Bank.setPmux · b k) s.draws s.drawn hP hb hf (fun _ _ => if_pos hk)
      (fun u w hu => bankWrite_pmux u b k w (hu ▸ hk)) hseq ha
    refine ⟨s1, s2, _, hread, hrace, hmerge, ?_, rfl, Bank.setPmux_setPmux s.bank b k W _⟩
    rw [hbank, Bank.setPmux_get, if_pos ⟨rfl, rfl⟩]
  · obtain ⟨s1, s2, hread, hrace, hbank, hmerge⟩ := step_rd_step_busWrite_step_wrm s (.pincfg b k) pos n v W
      (pincfgWord s.params s.bank b k s.drawWord) ops rest who (Bank.setPincfg s.params · b k) s.draws.tail (s.drawn + 1)
      hP hb hf (fun _ _ => if_pos hk) (fun u w hu => hu ▸ bankWrite_pincfg u b k w (hu ▸ hk)) hseq ha
    rw [← List.drop_one] at hmerge
    refine ⟨s1, s2, _, hread, hrace, hmerge, ?_, rfl, Bank.setPincfg_setPincfg s.params s.bank b k W _⟩
    rw [hbank, Bank.setPincfg_get, if_pos ⟨rfl, rfl⟩]

end Sys2Proof.Machine
end

section
/-! PROOFS of 30_encoding.md R86 to R96: decoder and encoder are inverse to each other, the decoder agrees with the match and
mask table, and exactly the reserved words are illegal. -/

namespace Sys2Proof

open Sys2Proof.Machine

/-! ## Encoding then decoding (R91, R92) -/

/-- A command whose word is packed from fields that mean it decodes to itself, since its pin fits the PIN field. -/
theorem decode_encode_of_packWord {i : Instr} {op : BitVec 4} {m : BitVec 3} {l : BitVec 1} {s : BitVec 4}
    (hw : i.WellFormed) (henc : encode i = packWord op (BitVec.ofNat 8 i.pin) m l s)
    (hmean : decodeFields op i.pin m l s = .cmd i) : decode (encode i) = .cmd i := by
  have hpin : (BitVec.ofNat 8 i.pin).toNat = i.pin := BitVec.toNat_ofNat _ _ ▸ Nat.mod_eq_of_lt hw
  rw [henc, decode_packWord, hpin, hmean]

theorem decode_encode (i : Instr) (hw : i.WellFormed) : decode (encode i) = .cmd i := by
  cases i with
  | setlvl p l => cases l <;> exact decode_encode_of_packWord hw rfl rfl
  | rslvBit p k => cases k <;> exact decode_encode_of_packWord hw rfl rfl
  | _ => exact decode_encode_of_packWord hw rfl rfl

/-- Settles O2. -/
theorem decodeOfEncodeIsTheCommand : Obligations.DecodeOfEncodeIsTheCommand := decode_encode

/-! ## Decoding then encoding (R90, R91) -/

/-- A KIND code that names a kind is that kind's code (R89). -/
theorem Kind.code_of_ofCode? : ∀ {c : BitVec 3} {k : Kind}, Kind.ofCode? c = some k → k.code = c := by decide

/-- A level bit is the bit of the level read from it. -/
theorem ofBool_beq_one : ∀ lvl : BitVec 1, BitVec.ofBool (lvl == 1) = lvl := by decide

/-- A `cfg` command is packed from the fields it was read from. -/
theorem encode_of_decodeCfg {i : Instr} {p : Nat} {mode : BitVec 3} {sel : BitVec 4}
    (h : decodeCfg p mode sel = .cmd i) : i.pin = p ∧ encode i = packWord 1 (BitVec.ofNat 8 p) mode 0 sel := by
  unfold decodeCfg at h
  by_cases h45 : mode = 4 ∨ mode = 5
  · obtain rfl | rfl := h45 <;> cases h <;> exact ⟨rfl, rfl⟩
  · obtain ⟨h4, h5⟩ := not_or.mp h45
    by_cases hs : sel = 0
    · subst hs
      simp only [h4, h5, if_false, ne_eq, not_true_eq_false] at h
      split_ifs at h with h0 h1 h2 h3 h6 <;> cases h <;> subst mode <;> exact ⟨rfl, rfl⟩
    · simp only [h4, h5, hs, if_false, ne_eq, not_false_eq_true, if_true] at h
      cases h

/-- A command is packed from the fields it was read from: what it does not carry is 0 there. -/
theorem encode_of_decodeFields {i : Instr} {op : BitVec 4} {p : Nat} {mode : BitVec 3} {lvl : BitVec 1} {sel : BitVec 4}
    (h : decodeFields op p mode lvl sel = .cmd i) :
    i.pin = p ∧ encode i = packWord op (BitVec.ofNat 8 p) mode lvl sel := by
  unfold decodeFields at h
  split_ifs at h with h1 hl h2 hms h6 hls hmls h3 h4 h5 h7 h8
  · simp only [ne_eq, not_not] at hl
    subst h1 hl
    exact encode_of_decodeCfg h
  · simp only [ne_eq, not_or, not_not] at hms
    obtain ⟨rfl, rfl⟩ := hms
    cases h
    rw [encode, ofBool_beq_one, h2]
    exact ⟨rfl, rfl⟩
  · simp only [ne_eq, not_or, not_not] at hls
    obtain ⟨rfl, rfl⟩ := hls
    cases hk : Kind.ofCode? mode with
    | none => simp [hk] at h
    | some k =>
      rw [hk] at h
      cases h
      rw [← Kind.code_of_ofCode? hk, h6]
      exact ⟨rfl, rfl⟩
  all_goals
    simp only [ne_eq, not_or, not_not] at hmls
    obtain ⟨rfl, rfl, rfl⟩ := hmls
    cases h
    subst op
    exact ⟨rfl, rfl⟩

/-- A word that decodes to a command: the pin fits, and the command's word is the word. -/
theorem wellFormed_and_encode_eq_of_decode {w : Word} {i : Instr} (h : decode w = .cmd i) : i.WellFormed ∧ encode i = w := by
  unfold decode at h
  split_ifs at h with hr
  obtain ⟨hpin, henc⟩ := encode_of_decodeFields h
  rw [Instr.WellFormed, hpin, henc, BitVec.ofNat_toNat, BitVec.setWidth_eq, packWord_fields w (not_not.mp hr)]
  exact ⟨(pinField w).isLt, rfl⟩

/-- Settles O3. -/
theorem encodeOfDecodeIsTheWord : Obligations.EncodeOfDecodeIsTheWord := fun _ _ => wellFormed_and_encode_eq_of_decode

/-! ## The reserved words (R90, R93) -/

/-- Decoding a word by the fields read from it. -/
theorem decode_of_fields {w : Word} {op : BitVec 4} {mode : BitVec 3} {lvl : BitVec 1} {sel : BitVec 4}
    (hrsv : rsvField w = 0) (hop : opField w = op) (hmode : modeField w = mode) (hlvl : lvlField w = lvl)
    (hsel : selField w = sel) : decode w = decodeFields op (pinField w).toNat mode lvl sel := by
  rw [decode, if_neg (not_not.mpr hrsv), hop, hmode, hlvl, hsel]

theorem Kind.ofCode?_eq_none_iff : ∀ c : BitVec 3, Kind.ofCode? c = none ↔ c = 7 := by decide

/-- In a `cfg` word the only illegal field is a selector that the mode does not use. -/
theorem decodeCfg_eq_illegal_iff (p : Nat) (mode : BitVec 3) (sel : BitVec 4) :
    decodeCfg p mode sel = .illegal ↔ ¬ (mode = 4 ∨ mode = 5 ∨ sel = 0) := by
  unfold decodeCfg
  split_ifs <;> simp_all

/-- `OP = 1`: the fields that have to be 0, and no more (R90). -/
theorem decodeFields_cfg_eq_illegal_iff (p : Nat) (mode : BitVec 3) (lvl : BitVec 1) (sel : BitVec 4) :
    decodeFields 1 p mode lvl sel = .illegal ↔ ¬ (lvl = 0 ∧ (mode = 4 ∨ mode = 5 ∨ sel = 0)) := by
  change (if lvl ≠ 0 then _ else decodeCfg p mode sel) = _ ↔ _
  by_cases hl : lvl = 0 <;> simp [hl, decodeCfg_eq_illegal_iff]

/-- `OP = 2`: MODE and SEL are unused (R90). -/
theorem decodeFields_setlvl_eq_illegal_iff (p : Nat) (mode : BitVec 3) (lvl : BitVec 1) (sel : BitVec 4) :
    decodeFields 2 p mode lvl sel = .illegal ↔ ¬ (mode = 0 ∧ sel = 0) := by
  change (if mode ≠ 0 ∨ sel ≠ 0 then _ else _) = _ ↔ _
  by_cases hz : mode = 0 ∧ sel = 0 <;> simp [hz, ← not_and_or]

/-- `OP = 6`: LVL and SEL are unused, and KIND 7 names no register (R89, R90). -/
theorem decodeFields_rslvBit_eq_illegal_iff (p : Nat) (mode : BitVec 3) (lvl : BitVec 1) (sel : BitVec 4) :
    decodeFields 6 p mode lvl sel = .illegal ↔ ¬ (lvl = 0 ∧ sel = 0) ∨ mode = 7 := by
  change (if lvl ≠ 0 ∨ sel ≠ 0 then _ else _) = _ ↔ _
  rw [← Kind.ofCode?_eq_none_iff]
  by_cases hz : lvl = 0 ∧ sel = 0
  · cases Kind.ofCode? mode <;> simp [hz]
  · rw [if_pos (by simpa only [ne_eq, not_and_or] using hz)]
    exact iff_of_true rfl (.inl hz)

/-- Every other `OP`: nothing but the pin is used, and the codes 0 and 9 to 15 are reserved (R87, R90). -/
theorem decodeFields_pinOnly_eq_illegal_iff {op : BitVec 4} (p : Nat) (mode : BitVec 3) (lvl : BitVec 1) (sel : BitVec 4)
    (h1 : op ≠ 1) (h2 : op ≠ 2) (h6 : op ≠ 6) :
    decodeFields op p mode lvl sel = .illegal
      ↔ (op = 0 ∨ 9 ≤ op.toNat) ∨ ¬ (mode = 0 ∧ lvl = 0 ∧ sel = 0) := by
  have hreserved : ∀ o : BitVec 4, o ≠ 1 → o ≠ 2 → o ≠ 6 →
      ((o = 0 ∨ 9 ≤ o.toNat) ↔ o ≠ 3 ∧ o ≠ 4 ∧ o ≠ 5 ∧ o ≠ 7 ∧ o ≠ 8) := by decide
  rw [hreserved op h1 h2 h6]
  unfold decodeFields
  rw [if_neg h1, if_neg h2, if_neg h6]
  by_cases hz : mode = 0 ∧ lvl = 0 ∧ sel = 0
  · obtain ⟨rfl, rfl, rfl⟩ := hz
    split_ifs <;> simp_all
  · rw [if_pos (by simpa only [ne_eq, not_and_or] using hz)]
    exact iff_of_true rfl (.inr hz)

/-- The reserved words, RSV apart. -/
theorem decodeFields_eq_illegal_iff (w : Word) (p : Nat) :
    decodeFields (opField w) p (modeField w) (lvlField w) (selField w) = .illegal
      ↔ (opField w = 0 ∨ 9 ≤ (opField w).toNat) ∨ ¬ unusedFieldsZero w ∨ (modeField w = 7 ∧ opField w = 6) := by
  unfold unusedFieldsZero
  by_cases h1 : opField w = 1
  · rw [h1, decodeFields_cfg_eq_illegal_iff]; simp
  by_cases h2 : opField w = 2
  · rw [h2, decodeFields_setlvl_eq_illegal_iff]; simp
  by_cases h6 : opField w = 6
  · rw [h6, decodeFields_rslvBit_eq_illegal_iff]; simp
  · rw [decodeFields_pinOnly_eq_illegal_iff p _ _ _ h1 h2 h6, if_neg h1, if_neg h2, if_neg h6]
    simp only [h6, and_false, or_false]

/-- `cfg` with MODE 7 and every other field legal (R93). -/
theorem decode_eq_invalidMode {w : Word} (hr : rsvField w = 0) (h1 : opField w = 1) (hu : unusedFieldsZero w)
    (h7 : modeField w = 7) : decode w = .invalidMode (pinField w).toNat := by
  rw [unusedFieldsZero, if_pos h1, h7] at hu
  obtain ⟨hl, h4 | h5 | hs⟩ := hu
  · cases h4
  · cases h5
  · exact decode_of_fields hr h1 h7 hl hs

/-- Settles O5. -/
theorem illegalWordsAreTheReservedOnes : Obligations.IllegalWordsAreTheReservedOnes := by
  refine ⟨fun w => ?_, fun w => decode_eq_invalidMode⟩
  unfold decode
  by_cases hr : rsvField w = 0
  · rw [if_neg (not_not.mpr hr), decodeFields_eq_illegal_iff]
    simp only [hr, ne_eq, not_true_eq_false, false_or]
  · rw [if_pos hr]
    exact iff_of_true rfl (.inr (.inl hr))

/-! ## The match and mask table (R92) -/

theorem wordField_and (a b : Word) (lo n : Nat) :
    wordField (a &&& b) lo n = wordField a lo n &&& wordField b lo n := BitVec.extractLsb'_and

/-- A mask cuts a packed word field by field. -/
theorem packWord_and (op : BitVec 4) (pin : BitVec 8) (mode : BitVec 3) (lvl : BitVec 1) (sel : BitVec 4) (m : Word) :
    packWord op pin mode lvl sel &&& m
      = packWord (op &&& opField m) (pin &&& pinField m) (mode &&& modeField m) (lvl &&& lvlField m) (sel &&& selField m) := by
  have hcut : ∀ lo n v, wordField (packWord op pin mode lvl sel) lo n = v →
      wordField (packWord op pin mode lvl sel &&& m) lo n = v &&& wordField m lo n := by
    rintro lo n v rfl
    exact wordField_and _ m lo n
  have hrsv : rsvField (packWord op pin mode lvl sel &&& m) = 0 :=
    (hcut 20 12 0 (rsvField_packWord ..)).trans BitVec.zero_and
  calc packWord op pin mode lvl sel &&& m
      = packWord _ _ _ _ _ := (packWord_fields _ hrsv).symm
    _ = _ := by
      congr 1
      · exact hcut 0 4 op (opField_packWord ..)
      · exact hcut 4 8 pin (pinField_packWord ..)
      · exact hcut 12 3 mode (modeField_packWord ..)
      · exact hcut 15 1 lvl (lvlField_packWord ..)
      · exact hcut 16 4 sel (selField_packWord ..)

/-- A packed word matches a row that does not look at the pin if its other fields, cut by the mask, are the match. -/
theorem matchesRow_packWord {op : BitVec 4} {pin : BitVec 8} {mode : BitVec 3} {lvl : BitVec 1} {sel : BitVec 4}
    {r : Word × Word} (hpin : pinField r.2 = 0)
    (hrow : packWord (op &&& opField r.2) 0 (mode &&& modeField r.2) (lvl &&& lvlField r.2) (sel &&& selField r.2) = r.1) :
    MatchesRow (packWord op pin mode lvl sel) r := by
  rw [MatchesRow, packWord_and, hpin, ← hrow]
  exact congrArg (packWord _ · _ _ _) BitVec.and_zero

theorem matchesRow_encode (i : Instr) : MatchesRow (encode i) (tableRow i) := by
  cases i with
  | cfgPf p s => rw [encode, tableRow]; exact matchesRow_packWord (by decide) (by revert s; decide)
  | cfgPfa p s => rw [encode, tableRow]; exact matchesRow_packWord (by decide) (by revert s; decide)
  | setlvl p l => rw [encode, tableRow]; exact matchesRow_packWord (by decide) (by cases l <;> decide)
  | rslvBit p k => rw [encode, tableRow]; exact matchesRow_packWord (by decide) (by cases k <;> decide)
  | _ => rw [encode, tableRow]; exact matchesRow_packWord (by decide) (by decide)

theorem tableRow_mem (i : Instr) : tableRow i ∈ tableRows := by
  cases i <;> simp [tableRow, tableRows]

/-- Every row is some command's. -/
theorem exists_tableRow_eq {r : Word × Word} (hr : r ∈ tableRows) : ∃ i, tableRow i = r := by
  have hrows : tableRows = [Instr.cfgOut 0, .cfgIn 0, .cfgPd 0, .cfgPu 0, .cfgPf 0 0, .cfgPfa 0 0, .cfgAn 0, .setlvl 0 false,
    .getlvl 0, .getcfg 0, .getmux 0, .rslvBit 0 .dir, .rslvCfg 0, .rslvMux 0].map tableRow := rfl
  rw [hrows] at hr
  obtain ⟨i, -, hi⟩ := List.mem_map.mp hr
  exact ⟨i, hi⟩

/-- Two rows that agree in every bit both masks look at are one row. -/
theorem tableRows_separated : ∀ r ∈ tableRows, ∀ r' ∈ tableRows, r.1 &&& r'.2 = r'.1 &&& r.2 → r = r' := by
  simp [tableRows]

/-- No word matches two rows. -/
theorem matchesRow_unique {w : Word} {r r' : Word × Word} (hr : r ∈ tableRows) (hr' : r' ∈ tableRows)
    (h : MatchesRow w r) (h' : MatchesRow w r') : r = r' := by
  refine tableRows_separated r hr r' hr' ?_
  calc r.1 &&& r'.2 = w &&& r.2 &&& r'.2 := by rw [h]
    _ = w &&& r'.2 &&& r.2 := by ac_rfl
    _ = r'.1 &&& r.2 := by rw [h']

/-- A field that the mask covers is the match's. -/
theorem wordField_of_matchesRow {w : Word} {r : Word × Word} {lo n : Nat} (h : MatchesRow w r)
    (hm : wordField r.2 lo n = BitVec.allOnes n) : wordField w lo n = wordField r.1 lo n := by
  rw [← h, wordField_and, hm, BitVec.and_allOnes]

/-- A word that matches a command's row decodes to a command of that row, KIND 7 excepted: its fields are the row's where the
mask covers them, and otherwise operands. -/
theorem exists_decode_of_matchesRow {w : Word} (i : Instr) (h : MatchesRow w (tableRow i))
    (h7 : ¬ (opField w = 6 ∧ modeField w = 7)) : ∃ j, decode w = .cmd j ∧ tableRow j = tableRow i := by
  have field {lo n : Nat} := wordField_of_matchesRow (lo := lo) (n := n) h
  cases i <;> rw [tableRow] at field
  case cfgPf | cfgPfa =>
    exact ⟨_, decode_of_fields (field (by decide)) (field (by decide)) (field (by decide)) (field (by decide)) rfl, rfl⟩
  case setlvl =>
    exact ⟨_, decode_of_fields (field (by decide)) (field (by decide)) (field (by decide)) rfl (field (by decide)), rfl⟩
  case rslvBit =>
    have hop : opField w = 6 := field (by decide)
    obtain ⟨k, hk⟩ := Option.ne_none_iff_exists'.mp fun hnone =>
      h7 ⟨hop, (Kind.ofCode?_eq_none_iff (modeField w)).mp hnone⟩
    have hd := decode_of_fields (field (by decide)) hop (Kind.code_of_ofCode? hk).symm (field (by decide)) (field (by decide))
    exact ⟨.rslvBit (pinField w).toNat k, hd.trans (by cases k <;> rfl), rfl⟩
  all_goals
    exact ⟨_, decode_of_fields (field (by decide)) (field (by decide)) (field (by decide)) (field (by decide))
      (field (by decide)), rfl⟩

/-- Settles O4. -/
theorem wordsDecodeToTheRowTheyMatch : Obligations.WordsDecodeToTheRowTheyMatch := by
  refine ⟨fun w i hd => ⟨tableRow_mem i, ?_⟩, fun w r hr h h7 => ?_, fun w r r' => matchesRow_unique⟩
  · obtain ⟨-, rfl⟩ := wellFormed_and_encode_eq_of_decode hd
    exact matchesRow_encode i
  · obtain ⟨i, rfl⟩ := exists_tableRow_eq hr
    exact exists_decode_of_matchesRow i h h7

/-! ## Words written out, and the assembler's lines (R86, R95, R96) -/

/-- Settles O1. -/
theorem writtenOutWordsDecode : Obligations.WrittenOutWordsDecode := by
  unfold Obligations.WrittenOutWordsDecode; decide

/-- Settles O6. -/
theorem pseudoInstructionsExpand : Obligations.PseudoInstructionsExpand :=
  ⟨fun _ => ⟨rfl, rfl, rfl⟩, fun _ _ => ⟨rfl, rfl, rfl, rfl, rfl, rfl, rfl, rfl, rfl⟩⟩

end Sys2Proof
end

section
/-! PROOFS of 40_resolver.md R104 to R112: the register offsets, what two pins share, the field laws, and the resolve commands,
which answer without an access. -/

namespace Sys2Proof.Machine

/-! ## Register offsets (R105) -/

theorem kind_offset_reference : ∀ (b : Fin 2) (k : Kind),
    BitVec.ofNat 32 (0x80 * b.val + kindBase k) = regOffset Params.reference (kindLoc b k) := by
  intro b k
  cases k <;> revert b <;> decide

section

variable {P : Params} {p : Nat} (h : P.offsets = Offsets.reference) (hp : p ≤ 63)
include h hp

theorem bitRegOff_eq_offBit (k : Kind) : bitRegOff P p k = offBit p (kindBase k) := by
  rw [bitRegOff, regOffset_of_reference P h, ← kind_offset_reference, bankOf_val p hp, offBit]

theorem cfgRegOff_eq_offCfg : cfgRegOff P p = offCfg p := by
  rw [cfgRegOff, cfgLoc, regOffset_of_reference P h, ← pincfg_offset_reference, bankOf_val p hp, cfgIndex_val, offCfg]

theorem muxRegOff_eq_offMux : muxRegOff P p = offMux p := by
  rw [muxRegOff, muxLoc, regOffset_of_reference P h, ← pmux_offset_reference, bankOf_val p hp, muxIndex_val, offMux]

end

/-- Settles O7. -/
theorem registerOffsetsFollowTheFormulas : Obligations.RegisterOffsetsFollowTheFormulas :=
  fun _ _ k h hp => ⟨bitRegOff_eq_offBit h hp k, cfgRegOff_eq_offCfg h hp, muxRegOff_eq_offMux h hp⟩

/-! ## What two pins share (R102 to R104) -/

theorem bankOf_eq_iff {p q : Nat} (hp : p ≤ 63) (hq : q ≤ 63) : bankOf p = bankOf q ↔ p / 32 = q / 32 := by
  rw [← Fin.val_inj, bankOf_val p hp, bankOf_val q hq]

/-- A configuration register holds four pins in a row (R102). -/
theorem cfgLoc_eq_iff {p q : Nat} (hp : p ≤ 63) (hq : q ≤ 63) : cfgLoc p = cfgLoc q ↔ p / 4 = q / 4 := by
  rw [cfgLoc, cfgLoc, BankLoc.pincfg.injEq, bankOf_eq_iff hp hq, ← Fin.val_inj, cfgIndex_val, cfgIndex_val]
  omega

/-- A multiplexer register holds eight pins in a row (R103). -/
theorem muxLoc_eq_iff {p q : Nat} (hp : p ≤ 63) (hq : q ≤ 63) : muxLoc p = muxLoc q ↔ p / 8 = q / 8 := by
  rw [muxLoc, muxLoc, BankLoc.pmux.injEq, bankOf_eq_iff hp hq, ← Fin.val_inj, muxIndex_val, muxIndex_val]
  omega

theorem xor_three_div_four (p : Nat) : (p ^^^ 3) / 4 = p / 4 := by
  have h := Nat.xor_div_two_pow (a := p) (b := 3) (n := 2)
  simpa using h

theorem xor_three_mod_four_ne (p : Nat) : (p ^^^ 3) % 4 ≠ p % 4 := by
  have h : (p ^^^ 3) % 4 = p % 4 ^^^ 3 := Nat.xor_mod_two_pow (a := p) (b := 3) (n := 2)
  have hflip : ∀ r < 4, r ^^^ 3 ≠ r := by decide
  rw [h]
  exact hflip _ (Nat.mod_lt _ (by decide))

theorem xor_one_div_two (p : Nat) : (p ^^^ 1) / 2 = p / 2 := by
  have h := Nat.xor_div_two_pow (a := p) (b := 1) (n := 1)
  simpa using h

/-- Two pins share no bit, no configuration byte and no multiplexer nibble (R104). -/
theorem pins_share_no_field (p q : Nat) (hp : p ≤ 63) (hq : q ≤ 63) (hne : p ≠ q) :
    (bankOf p = bankOf q → p % 32 ≠ q % 32)
      ∧ (cfgLoc p = cfgLoc q → cfgShift p + 8 ≤ cfgShift q ∨ cfgShift q + 8 ≤ cfgShift p)
      ∧ (muxLoc p = muxLoc q → muxShift p + 4 ≤ muxShift q ∨ muxShift q + 4 ≤ muxShift p) := by
  refine ⟨bit_ne q p hq hp hne, fun h => ?_, fun h => ?_⟩
  · obtain ⟨hb, hk⟩ := BankLoc.pincfg.inj h
    exact cfgShift_disjoint p q hp hq hne.symm hb.symm hk.symm
  · obtain ⟨hb, hk⟩ := BankLoc.pmux.inj h
    exact muxShift_disjoint p q hp hq hne.symm hb.symm hk.symm

theorem cfgLoc_ne_add_four (p : Nat) (hp : p + 4 ≤ 63) : cfgLoc p ≠ cfgLoc (p + 4) := by
  rw [ne_eq, cfgLoc_eq_iff (by omega) hp]
  omega

theorem cfg_xor_three (p : Nat) (hp : p ≤ 63) :
    cfgLoc p = cfgLoc (p ^^^ 3) ∧ cfgShift p ≠ cfgShift (p ^^^ 3) := by
  have hdiv := xor_three_div_four p
  have hmod := xor_three_mod_four_ne p
  constructor
  · rw [cfgLoc_eq_iff hp (by omega), hdiv]
  · simp only [cfgShift]
    omega

/-- The four pins of a quad in their register (R104). -/
theorem cfg_quad (q : Nat) (hq : q ≤ 15) :
    [4 * q, 4 * q + 1, 4 * q + 2, 4 * q + 3].map cfgShift = [0, 8, 16, 24]
      ∧ [4 * q, 4 * q + 1, 4 * q + 2, 4 * q + 3].map cfgLoc = List.replicate 4 (cfgLoc (4 * q)) := by
  have hshift : ∀ r < 4, cfgShift (4 * q + r) = r * 8 := by
    intro r hr
    simp only [cfgShift]
    omega
  have hloc : ∀ r < 4, cfgLoc (4 * q + r) = cfgLoc (4 * q) := by
    intro r hr
    rw [cfgLoc_eq_iff (by omega) (by omega)]
    omega
  have h0 := hshift 0 (by decide)
  simp only [Nat.add_zero] at h0
  simp [List.replicate, h0, hshift, hloc]

theorem mux_xor_one (p : Nat) (hp : p ≤ 63) :
    muxLoc p = muxLoc (p ^^^ 1) ∧ muxByteShift p = muxByteShift (p ^^^ 1)
      ∧ muxNibShift p = if p % 2 = 0 then 0 else 4 := by
  have hdiv := xor_one_div_two p
  refine ⟨?_, ?_, ?_⟩
  · rw [muxLoc_eq_iff hp (by omega)]
    omega
  · rw [muxByteShift, muxByteShift, hdiv]
  · rw [muxNibShift]
    split <;> omega

/-- Settles O8. -/
theorem pinsShareOnlyWhatTheResolverSays : Obligations.PinsShareOnlyWhatTheResolverSays :=
  ⟨pins_share_no_field, cfgLoc_ne_add_four, cfg_xor_three, cfg_quad, mux_xor_one⟩

/-! ## The field laws (R109) -/

theorem extField_insField_same (w v : Word) (pos n : Nat) (h : pos + n ≤ 32) :
    extField (insField w pos n v) pos n = v.setWidth n := by
  apply BitVec.eq_of_getLsbD_eq
  intro i hi
  rw [getLsbD_extField, getLsbD_insField _ _ _ _ _ (by omega), if_pos (by omega), Nat.add_sub_cancel_left,
    BitVec.getLsbD_setWidth]

theorem extField_insField_of_disjoint (w v : Word) (pos n pos2 n2 : Nat) (h2 : pos2 + n2 ≤ 32)
    (hd : pos + n ≤ pos2 ∨ pos2 + n2 ≤ pos) : extField (insField w pos n v) pos2 n2 = extField w pos2 n2 := by
  apply BitVec.eq_of_getLsbD_eq
  intro i hi
  rw [getLsbD_extField, getLsbD_extField, getLsbD_insField _ _ _ _ _ (by omega), if_neg (by omega)]

theorem insField_insField_same (w v1 v2 : Word) (pos n : Nat) :
    insField (insField w pos n v1) pos n v2 = insField w pos n v2 := by
  apply BitVec.eq_of_getLsbD_eq
  intro i hi
  simp only [getLsbD_insField _ _ _ _ _ hi]
  split
  · rfl
  · rfl

theorem insField_extField_same (w : Word) (pos n : Nat) : insField w pos n ((extField w pos n).setWidth 32) = w := by
  apply BitVec.eq_of_getLsbD_eq
  intro i hi
  rw [getLsbD_insField _ _ _ _ _ hi]
  split
  case isTrue hin =>
    obtain ⟨hlo, hhi⟩ := hin
    have hpos : pos + (i - pos) = i := by omega
    have hn : i - pos < n := by omega
    have h32 : i - pos < 32 := by omega
    rw [BitVec.getLsbD_setWidth, getLsbD_extField, hpos]
    simp [hn, h32]
  case isFalse => rfl

/-- Settles O9. -/
theorem fieldInsertionObeysItsLaws : Obligations.FieldInsertionObeysItsLaws :=
  ⟨extField_insField_same, fun w v pos n pos2 n2 _ => extField_insField_of_disjoint w v pos n pos2 n2,
    fun w v1 v2 pos n _ => insField_insField_same w v1 v2 pos n, fun w pos n _ => insField_extField_same w pos n⟩

/-! ## The resolve commands (R110 to R112) -/

@[simp] theorem checkRange_eq_none (p : Nat) : checkRange p = none ↔ p ≤ 63 := by
  simp [checkRange]

theorem checkBit_eq_none_iff (p : Nat) : checkBit p = none ↔ p ≤ 63 := by
  simp [checkBit]

theorem checkCfg_eq_none_iff (P : Params) (p : Nat) :
    checkCfg P p = none ↔ p ≤ 63 ∧ implemented P (cfgLoc p) = true := by
  simp [checkCfg]

theorem checkMux_eq_none_iff (P : Params) (p : Nat) :
    checkMux P p = none ↔ p ≤ 63 ∧ implemented P (muxLoc p) = true := by
  simp [checkMux]

/-- A `FINISH` with a constant, alone in `SEQ`, is one step: the bank, `LAT` and the draws stay (20_memory.md R70). -/
theorem run_accept_finish (s : State) (ha : Alone s) (r0 r1 : Word) :
    run 1 (s.accept [.finish (.const r0) r1]) = .next (s.completed s.bank s.lat r0 r1 0) :=
  run_op 0 _ (s.completed s.bank s.lat r0 r1 0) _ [] ha rfl rfl rfl

/-- An accepted command whose sequence is a `FINISH` with a constant completes in one step, without an access. -/
theorem completes_of_finish_only (i : Instr) (s : State) (r0 r1 : Word) (ha : Alone s)
    (hf : commandFault s.params i = none) (hseq : commandSeq s.params i = [.finish (.const r0) r1]) :
    ∃ t, exec i s = .next t ∧ t = s.accept [.finish (.const r0) r1]
      ∧ run 1 t = .next (s.completed s.bank s.lat r0 r1 0) :=
  ⟨_, hseq ▸ exec_accepts i s hf, rfl, run_accept_finish s ha r0 r1⟩

/-- Settles O21. -/
theorem rslvBitCompletes : Obligations.RslvBitCompletes := by
  intro s p k ⟨_, hoff, ha, hp⟩
  refine completes_of_finish_only (.rslvBit p k) s _ _ ha ((checkBit_eq_none_iff p).2 hp) ?_
  rw [commandSeq, seqRslvBit, bitRegOff_eq_offBit hoff hp]
  rfl

/-- Settles O22. -/
theorem rslvCfgCompletes : Obligations.RslvCfgCompletes := by
  intro s p ⟨_, hoff, ha, hp⟩ himpl
  refine completes_of_finish_only (.rslvCfg p) s _ _ ha ((checkCfg_eq_none_iff s.params p).2 ⟨hp, himpl⟩) ?_
  rw [commandSeq, seqRslvCfg, cfgRegOff_eq_offCfg hoff hp, cfgShift, Nat.mul_comm]

/-- Two bytes packed into a word, the second in bits 15:8 (R112). -/
theorem ofNat_or_shiftLeft_eight (a b : Nat) (ha : a < 0x100) :
    BitVec.ofNat 32 a ||| (BitVec.ofNat 32 b <<< 8) = BitVec.ofNat 32 (a + 0x100 * b) := by
  have hshift : BitVec.ofNat 32 b <<< 8 = BitVec.ofNat 32 (0x100 * b) := by
    rw [BitVec.shiftLeft_eq_mul_twoPow, Nat.mul_comm, BitVec.ofNat_mul]
    rfl
  have hor : 0x100 * b + a = 0x100 * b ||| a := Nat.two_pow_add_eq_or_of_lt (i := 8) ha b
  rw [hshift, ← BitVec.ofNat_or, Nat.or_comm, ← hor, Nat.add_comm]

/-- Settles O23. -/
theorem rslvMuxCompletes : Obligations.RslvMuxCompletes := by
  intro s p ⟨_, hoff, ha, hp⟩ himpl
  refine completes_of_finish_only (.rslvMux p) s _ _ ha ((checkMux_eq_none_iff s.params p).2 ⟨hp, himpl⟩) ?_
  have hbyte : muxByteShift p = 8 * (p / 2 % 4) := Nat.mul_comm ..
  have hnib : muxNibShift p = 4 * (p % 2) := Nat.mul_comm ..
  rw [commandSeq, seqRslvMux, muxRegOff_eq_offMux hoff hp, hbyte, hnib, ofNat_or_shiftLeft_eight _ _ (by omega)]

end Sys2Proof.Machine
end

section
/-! PROOFS of 41_level.md R130 to R132: the level commands, and that a pin configured as output reads back the level it was set
to. -/

namespace Sys2Proof.Machine

/-! ## A pin's bit of a register driven through its port (10_state.md R33, R35, 40_resolver.md R104) -/

/-- One access of a port for pin p gives its bit the port's level and leaves every other pin's bit. -/
theorem getLsbD_set_portWord_maskOf (v : Vector Word 2) (level : Bool) (p q : Nat) (hp : p ≤ 63) (hq : q ≤ 63) :
    (v.set (bankOf p) (portWord level (maskOf p) v[bankOf p]))[bankOf q].getLsbD (q % 32)
      = if q = p then level else v[bankOf q].getLsbD (q % 32) := by
  have hbit : q % 32 < 32 := Nat.mod_lt _ (by omega)
  rw [Vector.get_set_fin]
  by_cases hb : bankOf q = bankOf p
  · rw [if_pos hb, getLsbD_portWord _ _ _ _ hbit, getLsbD_maskOf _ _ hbit]
    by_cases hqp : q = p
    · simp [hqp]
    · simp [hqp, bit_ne p q hp hq hqp hb, hb]
  · have hqp : q ≠ p := fun h => hb (h ▸ rfl)
    rw [if_neg hb, if_neg hqp]

theorem pinOut_afterOut (B : Bank) (l : Bool) (p q : Nat) (hp : p ≤ 63) (hq : q ≤ 63) :
    pinOut (afterOut B p l) q = if q = p then l else pinOut B q :=
  getLsbD_set_portWord_maskOf B.out l p q hp hq

theorem pinDir_afterDir (B : Bank) (d : Bool) (p q : Nat) (hp : p ≤ 63) (hq : q ≤ 63) :
    pinDir (afterDir B p d) q = if q = p then d else pinDir B q :=
  getLsbD_set_portWord_maskOf B.dir d p q hp hq

/-- A write of pin p's mask to the output port of a level (R35, R130). -/
theorem bankWrite_outPort (s : State) (p : Nat) (l : Bool) :
    bankWrite (if l then .outset (bankOf p) else .outclr (bankOf p)) (maskOf p) s
      = .next (s.withBank (afterOut s.bank p l)) := by
  cases l <;> rfl

/-! ## The configuration byte a `CFGW` leaves (00_scope.md R10, 10_state.md R37, 42_configure.md R140) -/

/-- `cfgShift(p)` in the spelling of the statements (R102). -/
theorem cfgShift_eq (p : Nat) : cfgShift p = 8 * (p % 4) := Nat.mul_comm ..

theorem cfgOf_and_namedWord (P : Params) (p : Nat) (w : Word) :
    cfgOf p (w &&& P.namedWord) = cfgOf p w &&& P.namedMask := by
  apply BitVec.eq_of_getLsbD_eq
  intro i hi
  have hpos : cfgShift p + i < 32 := by have := cfgShift_fits p; omega
  have hbyte : (cfgShift p + i) % 8 = i := by rw [cfgShift_eq]; omega
  rw [BitVec.getLsbD_and, cfgOf, cfgOf, getLsbD_extField, getLsbD_extField, BitVec.getLsbD_and, getLsbD_namedWord P _ hpos,
    hbyte, Bool.and_assoc]

/-- Pin p's byte after `CFGW(p, v)`: the named bits of `v`. -/
theorem pinCfg_afterCfgw_same (s : State) (B : Bank) (p : Nat) (v : Byte) :
    pinCfg (afterCfgw s B p v) p = v &&& s.params.namedMask := by
  rw [pinCfg, afterCfgw, Bank.setPincfg_get, if_pos ⟨rfl, rfl⟩, cfgOf_and_namedWord, ← cfgShift_eq, cfgOf_insField]

theorem getLsbD_oneBit : ∀ pos i : Fin 8, (1#8 <<< pos.val).getLsbD i.val = decide (i = pos) := by decide

/-- `CFG_NAMED_MASK` bit by bit (R10). -/
theorem getLsbD_namedMask (P : Params) (i : Fin 8) :
    P.namedMask.getLsbD i.val = decide (i ∈ [P.posPmuxen, P.posInen, P.posPullen, P.posDrvstr]) := by
  simp only [Params.namedMask, BitVec.getLsbD_or, getLsbD_oneBit]
  simp [Bool.or_assoc]

/-- `CFG_IN` has named bits only, so storing it loses nothing. -/
theorem cfgIn_and_namedMask (P : Params) : cfgIn P &&& P.namedMask = cfgIn P := by
  apply BitVec.eq_of_getLsbD_eq
  intro i hi
  rw [BitVec.getLsbD_and, cfgIn, getLsbD_oneBit P.posInen ⟨i, hi⟩, getLsbD_namedMask P ⟨i, hi⟩]
  by_cases h : (⟨i, hi⟩ : Fin 8) = P.posInen <;> simp [h]

/-- A named bit of a byte whose named bits are those of `CFG_IN`: 1 in `INEN` alone. -/
theorem getLsbD_of_and_namedMask_eq_cfgIn (P : Params) (c : Byte) (h : c &&& P.namedMask = cfgIn P) (i : Fin 8)
    (hi : i ∈ [P.posPmuxen, P.posInen, P.posPullen, P.posDrvstr]) : c.getLsbD i.val = decide (i = P.posInen) := by
  have hbit : (c &&& P.namedMask).getLsbD i.val = (cfgIn P).getLsbD i.val := by rw [h]
  rwa [BitVec.getLsbD_and, getLsbD_namedMask, decide_eq_true hi, Bool.and_true, cfgIn, getLsbD_oneBit] at hbit

/-! ## Mode output: who brings a pin there, what it reads there (10_state.md R36, 42_configure.md R160) -/

/-- `cfg.out p` leaves pin p in mode output. -/
theorem encodes_output_afterCfgw_afterDir (s : State) (p : Nat) (hp : p ≤ 63) :
    Encodes s.params (afterCfgw s (afterDir s.bank p true) p (cfgIn s.params)) p .output := by
  refine ⟨(pinDir_afterDir s.bank true p p hp hp).trans (if_pos rfl), ?_⟩
  rw [pinCfg_afterCfgw_same, cfgIn_and_namedMask, cfgIn_and_namedMask]

/-- Mode output says nothing of `OUT`, so setting a level keeps it. -/
theorem encodes_output_afterOut (P : Params) (B : Bank) (p q : Nat) (l : Bool) (h : Encodes P B q .output) :
    Encodes P (afterOut B p l) q .output := h

/-- The condition of R36, said of a pin. -/
theorem readsBack_bitOf_iff (P : Params) (B : Bank) (p : Nat) (hp : p ≤ 63) :
    readsBack P B (bankOf p) (bitOf p) = true ↔
      pinDir B p = true ∧ implemented P (cfgLoc p) = true
        ∧ (pinCfg B p).getLsbD P.posInen.val = true ∧ (pinCfg B p).getLsbD P.posPmuxen.val = false := by
  have hbit : (bitOf p).val = p % 32 := rfl
  have hidx : cfgIndex (p % 32) = cfgIndex p := Fin.ext (by simp only [cfgIndex_val, Nat.mod_mod])
  have hpin : 32 * (bankOf p).val + p % 32 = p := by rw [bankOf_val p hp, Nat.div_add_mod]
  simp only [readsBack_iff, hbit, hidx, hpin]
  rfl

/-- A pin in mode output reads its output bit, whatever the draw. -/
theorem getLsbD_inputWord_of_encodes_output (P : Params) (B : Bank) (p : Nat) (draw : Word) (hP : ParamsOk P) (hp : p ≤ 63)
    (himpl : implemented P (cfgLoc p) = true) (hmode : Encodes P B p .output) :
    (inputWord P B (bankOf p) draw).getLsbD (p % 32) = pinOut B p := by
  obtain ⟨hdir, hcfg⟩ := hmode
  obtain ⟨-, -, -, hnodup, -, -⟩ := hP
  have hne : P.posPmuxen ≠ P.posInen := fun h => by simp [h] at hnodup
  have hinen := getLsbD_of_and_namedMask_eq_cfgIn P _ hcfg P.posInen (by simp)
  have hpmuxen := getLsbD_of_and_namedMask_eq_cfgIn P _ hcfg P.posPmuxen (by simp)
  have hreads : readsBack P B (bankOf p) (bitOf p) = true :=
    (readsBack_bitOf_iff P B p hp).2 ⟨hdir, himpl, hinen.trans (decide_eq_true rfl), hpmuxen.trans (decide_eq_false hne)⟩
  exact (getLsbD_inputWord P B (bankOf p) draw (bitOf p)).trans (if_pos hreads)

/-! ## A command under way, left alone (20_memory.md R70) -/

/-- The state in which the command accepted in `s` still has `ops` to perform, with the bank, `LAT` and the draws as its steps
have left them. It begins as `s.accept ops`, which is `s.underway s.bank s.lat 0 ops`, and ends as `State.completed`. -/
def State.underway (s : State) (B : Bank) (lat : Word) (taken : Nat) (ops : List MicroOp) : State :=
  { s with
    st := .busy
    seq := ops
    bank := B
    lat := lat
    draws := s.draws.drop taken
    drawn := s.drawn + taken }

section

variable {s : State} {B B' : Bank} {lat w : Word} {k k' n : Nat} {ops : List MicroOp}

/-- A command whose checks pass completes as its sequence runs, from the state it is accepted in. -/
theorem completes_of_run_underway {u : State} (i : Instr) (hf : commandFault s.params i = none)
    (hrun : run (commandSeq s.params i).length (s.underway s.bank s.lat 0 (commandSeq s.params i)) = .next u) :
    Completes i s u :=
  ⟨exec_accepts i s hf, hrun⟩

theorem afterDraw_underway : (s.underway B lat k ops).afterDraw = s.underway B lat (k + 1) ops := by
  simp [State.afterDraw, State.underway, List.tail_drop, Nat.add_assoc]

/-- The last step of a command. -/
theorem run_underway_finish (ha : Alone s) (r0 : Resp0) (r1 : Word) :
    run 1 (s.underway B lat k [.finish r0 r1]) = .next (s.completed B lat (r0.eval lat) r1 k) :=
  run_op 0 _ (s.completed B lat (r0.eval lat) r1 k) _ [] ha rfl rfl rfl

variable (hP : ParamsOk s.params) (ha : Alone s) (l : BankLoc) (pos width : Nat) (v : Word)
include hP ha

theorem run_underway_wr (hw : bankWrite l v (s.underway B lat k ops) = .next (s.underway B' lat k ops)) :
    run (n + 1) (s.underway B lat k (.wr (regOffset s.params l) v :: ops)) = run n (s.underway B' lat k ops) :=
  run_op n _ _ _ ops ha rfl rfl ((perform_wr s.params (s.underway B lat k ops) rfl hP l v).trans hw)

theorem run_underway_rd (hr : bankRead l (s.underway B lat k ops) = .next (w, s.underway B lat k' ops)) :
    run (n + 1) (s.underway B lat k (.rd (regOffset s.params l) :: ops)) = run n (s.underway B w k' ops) :=
  run_op n _ _ _ ops ha rfl rfl (perform_rd s.params (s.underway B lat k ops) _ w rfl hP l hr)

theorem run_underway_wrm
    (hw : bankWrite l (insField lat pos width v) (s.underway B lat k ops) = .next (s.underway B' lat k ops)) :
    run (n + 1) (s.underway B lat k (.wrm (regOffset s.params l) pos width v :: ops)) = run n (s.underway B' lat k ops) :=
  run_op n _ _ _ ops ha rfl rfl ((perform_wrm s.params (s.underway B lat k ops) rfl hP l pos width v).trans hw)

/-- `CFGW(p, v)` as the first read of a command (R140): its read takes the one draw. -/
theorem run_underway_cfgw (p : Nat) (c : Byte) (himpl : implemented s.params (cfgLoc p) = true) :
    run (n + 2) (s.underway B lat 0 (cfgw s.params p c ++ ops))
      = run n (s.underway (afterCfgw s B p c) (cfgRead s B p) 1 ops) := by
  have hread (rest : List MicroOp) :
      bankRead (cfgLoc p) (s.underway B lat 0 rest) = .next (cfgRead s B p, s.underway B lat 1 rest) := by
    rw [← afterDraw_underway]
    exact if_pos himpl
  have hwrite : bankWrite (cfgLoc p) (insField (cfgRead s B p) (cfgShift p) 8 (c.setWidth 32))
      (s.underway B (cfgRead s B p) 1 ops) = .next (s.underway (afterCfgw s B p c) (cfgRead s B p) 1 ops) := by
    rw [afterCfgw, ← cfgShift_eq]
    exact if_pos himpl
  exact (run_underway_rd hP ha (cfgLoc p) (hread _)).trans (run_underway_wrm hP ha (cfgLoc p) _ _ _ hwrite)

end

/-! ## The commands' completion, whatever the offset table -/

/-- A one-bit field of `LAT` as a response. -/
theorem eval_latField_one (lat : Word) (pos : Nat) :
    (Resp0.latField pos 1).eval lat = if lat.getLsbD pos then 1 else 0 := by
  apply BitVec.eq_of_getLsbD_eq
  intro i hi
  rw [Resp0.eval, BitVec.getLsbD_setWidth, getLsbD_extField]
  cases i with
  | zero => split_ifs with h <;> simp [h]
  | succ i => split_ifs <;> simp [BitVec.getLsbD_one]

section

variable (s : State) (p : Nat) (hP : ParamsOk s.params) (ha : Alone s) (hp : p ≤ 63)
include hP ha hp

theorem cfgOut_completes (himpl : implemented s.params (cfgLoc p) = true) :
    Completes (.cfgOut p) s (s.completed (afterCfgw s (afterDir s.bank p true) p (cfgIn s.params))
      (cfgRead s s.bank p) 0 0 1) := by
  refine completes_of_run_underway (.cfgOut p) ((checkCfg_eq_none_iff s.params p).2 ⟨hp, himpl⟩) ?_
  calc run 4 (s.underway s.bank s.lat 0 (seqCfgOut s.params p))
      = run 3 (s.underway (afterDir s.bank p true) s.lat 0 (cfgw s.params p (cfgIn s.params) ++ [finishZero])) :=
        run_underway_wr hP ha (.dirset (bankOf p)) (maskOf p) rfl
    _ = run 1 (s.underway _ _ 1 [finishZero]) := run_underway_cfgw hP ha p (cfgIn s.params) himpl
    _ = _ := run_underway_finish ha (.const 0) 0

theorem setlvl_completes (l : Bool) :
    Completes (.setlvl p l) s (s.completed (afterOut s.bank p l) s.lat 0 0 0) := by
  refine completes_of_run_underway (.setlvl p l) ((checkBit_eq_none_iff p).2 hp) ?_
  calc run 2 (s.underway s.bank s.lat 0 (seqSetlvl s.params p l))
      = run 1 (s.underway (afterOut s.bank p l) s.lat 0 [.finish (.const 0) 0]) :=
        run_underway_wr hP ha _ (maskOf p) (bankWrite_outPort _ p l)
    _ = _ := run_underway_finish ha (.const 0) 0

theorem getlvl_completes :
    Completes (.getlvl p) s (s.completed s.bank (inputWord s.params s.bank (bankOf p) s.drawWord)
      (if (inputWord s.params s.bank (bankOf p) s.drawWord).getLsbD (p % 32) then 1 else 0) 0 1) := by
  refine completes_of_run_underway (.getlvl p) ((checkBit_eq_none_iff p).2 hp) ?_
  have hread (rest : List MicroOp) : bankRead (.input (bankOf p)) (s.underway s.bank s.lat 0 rest)
      = .next (inputWord s.params s.bank (bankOf p) s.drawWord, s.underway s.bank s.lat 1 rest) := by
    rw [← afterDraw_underway]
    rfl
  rw [← eval_latField_one]
  calc run 2 (s.underway s.bank s.lat 0 (seqGetlvl s.params p))
      = run 1 (s.underway s.bank _ 1 [.finish (.latField (p % 32) 1) 0]) :=
        run_underway_rd hP ha (.input (bankOf p)) (hread _)
    _ = _ := run_underway_finish ha _ 0

/-- In mode output `getlvl` answers the pin's output bit (R36, R131). -/
theorem getlvl_completes_of_encodes_output (himpl : implemented s.params (cfgLoc p) = true)
    (hmode : Encodes s.params s.bank p .output) :
    Completes (.getlvl p) s (s.completed s.bank (inputWord s.params s.bank (bankOf p) s.drawWord)
      (if pinOut s.bank p then 1 else 0) 0 1) := by
  rw [← getLsbD_inputWord_of_encodes_output s.params s.bank p s.drawWord hP hp himpl hmode]
  exact getlvl_completes s p hP ha hp

end

/-! ## The statements (R130 to R132) -/

/-- Settles O17. -/
theorem setlvlCompletes : Obligations.SetlvlCompletes := by
  intro s p l ⟨hP, hoff, ha, hp⟩
  obtain ⟨hexec, hrun⟩ := setlvl_completes s p hP ha hp l
  have hport : regOffset s.params (if l then .outset (bankOf p) else .outclr (bankOf p))
      = offBit p (if l then 0x18 else 0x14) := by
    cases l with
    | true => exact bitRegOff_eq_offBit hoff hp .outset
    | false => exact bitRegOff_eq_offBit hoff hp .outclr
  refine ⟨_, hexec, ?_, hrun, ?_, fun q hq hne => ?_⟩
  · rw [commandSeq, seqSetlvl, hport]
    rfl
  · rw [pinOut_afterOut s.bank l p p hp hp, if_pos rfl]
  · rw [pinOut_afterOut s.bank l p q hp hq, if_neg hne]

/-- Settles O18. -/
theorem getlvlCompletes : Obligations.GetlvlCompletes := by
  intro s p ⟨hP, hoff, ha, hp⟩
  obtain ⟨hexec, hrun⟩ := getlvl_completes s p hP ha hp
  have hport : regOffset s.params (.input (bankOf p)) = offBit p 0x20 := bitRegOff_eq_offBit hoff hp .input
  refine ⟨_, hexec, ?_, hrun⟩
  rw [commandSeq, seqGetlvl, hport]

/-- Settles O28: `cfg.out` brings the pin to mode output, `setlvl` keeps it there, so `getlvl` answers the output bit set. -/
theorem outputReadsBackTheLevelSet : Obligations.OutputReadsBackTheLevelSet := by
  intro s p l hP ha hp himpl
  have hmode := encodes_output_afterOut s.params _ p p l (encodes_output_afterCfgw_afterDir s p hp)
  obtain ⟨hexec1, hrun1⟩ := cfgOut_completes s p hP ha hp himpl
  obtain ⟨hexec2, hrun2⟩ := setlvl_completes (s.completed _ _ 0 0 1) p hP ha hp l
  obtain ⟨hexec3, hrun3⟩ :=
    getlvl_completes_of_encodes_output (State.completed (s.completed _ _ 0 0 1) _ _ 0 0 0) p hP ha hp himpl hmode
  refine ⟨_, _, _, _, _, _, hexec1, hrun1, hexec2, hrun2, hexec3, hrun3, rfl, ?_⟩
  change (if pinOut (afterOut _ p l) p = true then (1 : Word) else 0) = if l = true then 1 else 0
  rw [pinOut_afterOut _ l p p hp hp, if_pos rfl]

end Sys2Proof.Machine
end

section
/-! PROOFS of 42_configure.md R140 to R164: every configure is accesses that prepare the pin's other fields, then one `CFGW`,
then `FINISH`; what the bank then holds, and that the same configure a second time changes nothing. -/

namespace Sys2Proof.Machine

/-! ## The seven sequences in one form (R140, R141, R150 to R156) -/

/-- The configuration byte a mode writes: the value column of R141. -/
def modeByte (P : Params) : Mode → Byte
  | .output | .input => cfgIn P
  | .inputPulldown | .inputPullup => cfgPull P
  | .peripheral _ => cfgPf P
  | .peripheralAlt _ | .analog => cfgPfa P

/-- The micro-operations of a configure before its `CFGW`. -/
def modePrologue (P : Params) (p : Nat) : Mode → List MicroOp
  | .output => [.wr (regOffset P (.dirset (bankOf p))) (maskOf p)]
  | .input => [.wr (regOffset P (.dirclr (bankOf p))) (maskOf p)]
  | .inputPulldown =>
    [.wr (regOffset P (.dirclr (bankOf p))) (maskOf p), .wr (regOffset P (.outclr (bankOf p))) (maskOf p)]
  | .inputPullup =>
    [.wr (regOffset P (.dirclr (bankOf p))) (maskOf p), .wr (regOffset P (.outset (bankOf p))) (maskOf p)]
  | .peripheral sel | .peripheralAlt sel => muxw P p sel
  | .analog => muxw P p P.analogSel

/-- The bank once those are done. -/
def bankBeforeCfgw (s : State) (p : Nat) : Mode → Bank
  | .output => afterDir s.bank p true
  | .input => afterDir s.bank p false
  | .inputPulldown => afterOut (afterDir s.bank p false) p false
  | .inputPullup => afterOut (afterDir s.bank p false) p true
  | .peripheral sel | .peripheralAlt sel => afterMuxw s p sel
  | .analog => afterMuxw s p s.params.analogSel

/-- The bank a configure leaves. -/
def bankConfigured (s : State) (p : Nat) (M : Mode) : Bank :=
  afterCfgw s (bankBeforeCfgw s p M) p (modeByte s.params M)

theorem commandSeq_configure (P : Params) (p : Nat) (M : Mode) :
    commandSeq P (Instr.configure p M) = modePrologue P p M ++ (cfgw P p (modeByte P M) ++ [finishZero]) := by
  cases M <;> rfl

theorem checkCfgMux_eq_none_iff (P : Params) (p : Nat) :
    checkCfgMux P p = none ↔ p ≤ 63 ∧ implemented P (cfgLoc p) = true ∧ implemented P (muxLoc p) = true := by
  simp [checkCfgMux]

/-- A configure is accepted when the pin is in range and every register it accesses exists (R142, 60_exceptions.md R184). -/
theorem commandFault_configure_eq_none_iff (P : Params) (p : Nat) (M : Mode) :
    commandFault P (Instr.configure p M) = none ↔ p ≤ 63 ∧ ∀ l ∈ configureLocs p M, implemented P l = true := by
  cases M with
  | output | input | inputPulldown | inputPullup =>
    rw [Instr.configure, commandFault, checkCfg_eq_none_iff]
    simp [configureLocs, implemented, cfgLoc]
  | peripheral _ | peripheralAlt _ | analog =>
    rw [Instr.configure, commandFault, checkCfgMux_eq_none_iff]
    simp [configureLocs, and_comm]

theorem cfgLoc_mem_configureLocs (p : Nat) (M : Mode) : cfgLoc p ∈ configureLocs p M := by
  cases M <;> simp [configureLocs]

/-- The bank of `CFGW` holds the configuration word the command began with: what comes before writes other registers. -/
theorem cfgRead_bankBeforeCfgw (s : State) (p : Nat) (M : Mode) :
    cfgRead s (bankBeforeCfgw s p M) p = cfgRead s s.bank p := by
  cases M <;> rfl

/-! ## A configure left alone (20_memory.md R70, 70_reset_and_hazards.md R222) -/

section

variable {s : State} {lat : Word} {n : Nat} {ops : List MicroOp} (hP : ParamsOk s.params) (ha : Alone s) (p : Nat)
include hP ha

/-- `MUXW(p, sel)` as the first accesses of a command (R140): it takes no draw. -/
theorem run_underway_muxw (sel : Nibble) (himpl : implemented s.params (muxLoc p) = true) :
    run (n + 2) (s.underway s.bank lat 0 (muxw s.params p sel ++ ops))
      = run n (s.underway (afterMuxw s p sel) s.bank.pmux[bankOf p][muxIndex p] 0 ops) := by
  have hread (rest : List MicroOp) : bankRead (muxLoc p) (s.underway s.bank lat 0 rest)
      = .next (s.bank.pmux[bankOf p][muxIndex p], s.underway s.bank lat 0 rest) := if_pos himpl
  have hwrite (old : Word) :
      bankWrite (muxLoc p) (insField s.bank.pmux[bankOf p][muxIndex p] (muxShift p) 4 (sel.setWidth 32))
        (s.underway s.bank old 0 ops) = .next (s.underway (afterMuxw s p sel) old 0 ops) := by
    rw [afterMuxw, ← muxShift_eq]
    exact if_pos himpl
  exact (run_underway_rd hP ha (muxLoc p) (hread _)).trans (run_underway_wrm hP ha (muxLoc p) _ _ _ (hwrite _))

/-- The accesses before the `CFGW` take no draw; what `LAT` holds after them, the `CFGW` overwrites. -/
theorem run_underway_modePrologue (M : Mode) (himpl : ∀ l ∈ configureLocs p M, implemented s.params l = true) :
    ∃ lat', run (n + (modePrologue s.params p M).length) (s.underway s.bank lat 0 (modePrologue s.params p M ++ ops))
      = run n (s.underway (bankBeforeCfgw s p M) lat' 0 ops) := by
  cases M with
  | output => exact ⟨lat, run_underway_wr hP ha (.dirset (bankOf p)) (maskOf p) rfl⟩
  | input => exact ⟨lat, run_underway_wr hP ha (.dirclr (bankOf p)) (maskOf p) rfl⟩
  | inputPulldown =>
    exact ⟨lat, (run_underway_wr hP ha (.dirclr (bankOf p)) (maskOf p) rfl).trans
      (run_underway_wr (B := afterDir s.bank p false) hP ha (.outclr (bankOf p)) (maskOf p) rfl)⟩
  | inputPullup =>
    exact ⟨lat, (run_underway_wr hP ha (.dirclr (bankOf p)) (maskOf p) rfl).trans
      (run_underway_wr (B := afterDir s.bank p false) hP ha (.outset (bankOf p)) (maskOf p) rfl)⟩
  | peripheral sel | peripheralAlt sel => exact ⟨_, run_underway_muxw hP ha p sel (himpl _ (.head _))⟩
  | analog => exact ⟨_, run_underway_muxw hP ha p s.params.analogSel (himpl _ (.head _))⟩

/-- A configure whose checks pass completes, and of the draws takes the one of its `CFGW`. -/
theorem configure_completes (M : Mode) (hf : commandFault s.params (Instr.configure p M) = none) :
    Completes (Instr.configure p M) s (s.completed (bankConfigured s p M) (cfgRead s s.bank p) 0 0 1) := by
  obtain ⟨-, himpl⟩ := (commandFault_configure_eq_none_iff s.params p M).1 hf
  have hlen : (commandSeq s.params (Instr.configure p M)).length = 3 + (modePrologue s.params p M).length := by
    rw [commandSeq_configure, List.length_append, Nat.add_comm]
    rfl
  refine completes_of_run_underway _ hf ?_
  rw [hlen, commandSeq_configure]
  obtain ⟨lat, hprologue⟩ := run_underway_modePrologue (n := 3) hP ha p M himpl
  rw [hprologue, run_underway_cfgw hP ha p _ (himpl _ (cfgLoc_mem_configureLocs p M)), cfgRead_bankBeforeCfgw]
  exact run_underway_finish ha (.const 0) 0

end

/-! ## The completion statements (R150 to R156) -/

section

variable {P : Params} {p : Nat} (h : P.offsets = Offsets.reference) (hp : p ≤ 63)
include h hp

theorem cfgw_eq_of_reference (v : Byte) :
    cfgw P p v = [.rd (offCfg p), .wrm (offCfg p) (8 * (p % 4)) 8 (v.setWidth 32)] := by
  rw [cfgw, cfgRegOff_eq_offCfg h hp, cfgShift_eq]

theorem wr_port_eq_of_reference (k : Kind) :
    MicroOp.wr (bitRegOff P p k) (maskOf p) = .wr (offBit p (kindBase k)) (bitWord p) := by
  rw [bitRegOff_eq_offBit h hp k]
  rfl

theorem muxw_eq_of_reference (sel : Nibble) :
    muxw P p sel = [.rd (offMux p), .wrm (offMux p) (4 * (p % 8)) 4 (sel.setWidth 32)] := by
  rw [muxw, muxRegOff_eq_offMux h hp, muxShift_eq]

end

/-- Every completion statement of a configure, given what comes before its `CFGW` in the reference offset table. -/
theorem configure_completes_of_reference {s : State} {p : Nat} (h : Undisturbed s p) (M : Mode) {ops : List MicroOp}
    (hf : commandFault s.params (Instr.configure p M) = none) (hops : modePrologue s.params p M = ops) :
    ∃ t, exec (Instr.configure p M) s = .next t
      ∧ t = s.accept (ops ++ [.rd (offCfg p), .wrm (offCfg p) (8 * (p % 4)) 8 ((modeByte s.params M).setWidth 32),
              .finish (.const 0) 0])
      ∧ run (ops.length + 3) t = .next (s.completed (bankConfigured s p M) (cfgRead s s.bank p) 0 0 1) := by
  obtain ⟨hP, hoff, ha, hp⟩ := h
  obtain ⟨hexec, hrun⟩ := configure_completes hP ha p M hf
  rw [commandSeq_configure, hops, cfgw_eq_of_reference hoff hp] at hexec hrun
  rw [List.length_append] at hrun
  exact ⟨_, hexec, rfl, hrun⟩

/-- Settles O10. -/
theorem cfgOutCompletes : Obligations.CfgOutCompletes := by
  intro s p h himpl
  obtain ⟨-, hoff, -, hp⟩ := id h
  exact configure_completes_of_reference h .output ((checkCfg_eq_none_iff s.params p).2 ⟨hp, himpl⟩)
    (congrArg ([·]) (wr_port_eq_of_reference hoff hp .dirset))

/-- Settles O11. -/
theorem cfgInCompletes : Obligations.CfgInCompletes := by
  intro s p h himpl
  obtain ⟨-, hoff, -, hp⟩ := id h
  exact configure_completes_of_reference h .input ((checkCfg_eq_none_iff s.params p).2 ⟨hp, himpl⟩)
    (congrArg ([·]) (wr_port_eq_of_reference hoff hp .dirclr))

/-- Settles O12. -/
theorem cfgPdCompletes : Obligations.CfgPdCompletes := by
  intro s p h himpl
  obtain ⟨-, hoff, -, hp⟩ := id h
  exact configure_completes_of_reference h .inputPulldown ((checkCfg_eq_none_iff s.params p).2 ⟨hp, himpl⟩)
    (congrArg₂ ([·, ·]) (wr_port_eq_of_reference hoff hp .dirclr) (wr_port_eq_of_reference hoff hp .outclr))

/-- Settles O13. -/
theorem cfgPuCompletes : Obligations.CfgPuCompletes := by
  intro s p h himpl
  obtain ⟨-, hoff, -, hp⟩ := id h
  exact configure_completes_of_reference h .inputPullup ((checkCfg_eq_none_iff s.params p).2 ⟨hp, himpl⟩)
    (congrArg₂ ([·, ·]) (wr_port_eq_of_reference hoff hp .dirclr) (wr_port_eq_of_reference hoff hp .outset))

/-- Settles O14. -/
theorem cfgPfCompletes : Obligations.CfgPfCompletes := by
  intro s p sel h hcfg hmux
  obtain ⟨-, hoff, -, hp⟩ := id h
  exact configure_completes_of_reference h (.peripheral sel) ((checkCfgMux_eq_none_iff s.params p).2 ⟨hp, hcfg, hmux⟩)
    (muxw_eq_of_reference hoff hp sel)

/-- Settles O15. -/
theorem cfgPfaCompletes : Obligations.CfgPfaCompletes := by
  intro s p sel h hcfg hmux
  obtain ⟨-, hoff, -, hp⟩ := id h
  exact configure_completes_of_reference h (.peripheralAlt sel) ((checkCfgMux_eq_none_iff s.params p).2 ⟨hp, hcfg, hmux⟩)
    (muxw_eq_of_reference hoff hp sel)

/-- Settles O16. -/
theorem cfgAnCompletes : Obligations.CfgAnCompletes := by
  intro s p h hcfg hmux
  obtain ⟨-, hoff, -, hp⟩ := id h
  exact configure_completes_of_reference h .analog ((checkCfgMux_eq_none_iff s.params p).2 ⟨hp, hcfg, hmux⟩)
    (muxw_eq_of_reference hoff hp s.params.analogSel)

/-! ## What the bank holds after a configure (R141, R160, R161) -/

/-- The bits of R141's table. -/
theorem getLsbD_modeByte (P : Params) (M : Mode) (i : Fin 8) :
    (modeByte P M).getLsbD i.val = decide (i ∈ modePositions P M) := by
  cases M <;> simp only [modeByte, cfgIn, cfgPull, cfgPf, cfgPfa, BitVec.getLsbD_or, getLsbD_oneBit] <;>
    simp [modePositions, Bool.or_assoc]

theorem modePositions_subset_named (P : Params) (M : Mode) :
    modePositions P M ⊆ [P.posPmuxen, P.posInen, P.posPullen, P.posDrvstr] := by
  cases M <;> simp [modePositions]

/-- A mode's byte has named bits only, so storing it loses nothing. -/
theorem modeByte_and_namedMask (P : Params) (M : Mode) : modeByte P M &&& P.namedMask = modeByte P M := by
  apply BitVec.eq_of_getLsbD_eq
  intro i hi
  rw [BitVec.getLsbD_and, getLsbD_modeByte P M ⟨i, hi⟩, getLsbD_namedMask P ⟨i, hi⟩]
  by_cases h : (⟨i, hi⟩ : Fin 8) ∈ modePositions P M
  · simp [h, modePositions_subset_named P M h]
  · simp [h]

/-- The named bits of a configuration word read are those stored, whatever the draw (10_state.md R37). -/
theorem cfgRead_and_namedWord (s : State) (B : Bank) (p : Nat) :
    cfgRead s B p &&& s.params.namedWord = B.pincfg[bankOf p][cfgIndex p] &&& s.params.namedWord := by
  apply BitVec.eq_of_getLsbD_eq
  intro i hi
  simp only [cfgRead, pincfgWord, BitVec.getLsbD_and, BitVec.getLsbD_or, BitVec.getLsbD_not, hi]
  cases s.params.namedWord.getLsbD i <;> simp

/-- `CFGW(p, v)` leaves the named bits of every other pin's byte. -/
theorem pinCfg_afterCfgw_of_ne (s : State) (B : Bank) (p q : Nat) (v : Byte) (hp : p ≤ 63) (hq : q ≤ 63) (hne : q ≠ p) :
    pinCfg (afterCfgw s B p v) q &&& s.params.namedMask = pinCfg B q &&& s.params.namedMask := by
  rw [pinCfg, afterCfgw, Bank.setPincfg_get]
  split
  case isTrue h =>
    obtain ⟨hb, hk⟩ := h
    have hfields := cfgShift_disjoint p q hp hq hne hb hk
    have hother : cfgOf q (insField (cfgRead s B p) (8 * (p % 4)) 8 (v.setWidth 32)) = cfgOf q (cfgRead s B p) := by
      rw [← cfgShift_eq]
      exact extField_insField_of_disjoint _ _ _ _ _ _ (cfgShift_fits q) hfields
    rw [cfgOf_and_namedWord, hother, BitVec.and_assoc, BitVec.and_self, ← cfgOf_and_namedWord, cfgRead_and_namedWord,
      cfgOf_and_namedWord]
    simp only [pinCfg, hb, hk]
  case isFalse => rfl

/-- `MUXW(p, sel)` writes pin p's nibble and leaves every other pin's. -/
theorem pinMux_afterMuxw (s : State) (p q : Nat) (sel : Nibble) (hp : p ≤ 63) (hq : q ≤ 63) :
    pinMux (afterMuxw s p sel) q = if q = p then sel else pinMux s.bank q := by
  rw [pinMux, afterMuxw, Bank.setPmux_get, ← muxShift_eq]
  by_cases hqp : q = p
  · rw [hqp, if_pos ⟨rfl, rfl⟩, if_pos rfl, muxOf_insField]
  · rw [if_neg hqp]
    split
    case isTrue h =>
      obtain ⟨hb, hk⟩ := h
      simp only [pinMux, hb, hk]
      exact extField_insField_of_disjoint _ _ _ _ _ _ (muxShift_fits q) (muxShift_disjoint p q hp hq hqp hb hk)
    case isFalse => rfl

section

variable (s : State) (p : Nat) (M : Mode)

/-- The configuration byte held is the mode's. -/
theorem pinCfg_bankConfigured : pinCfg (bankConfigured s p M) p = modeByte s.params M := by
  rw [bankConfigured, pinCfg_afterCfgw_same, modeByte_and_namedMask]

/-- The configuration register has no reserved bit (10_state.md R37). -/
theorem bankConfigured_pincfg_canonical :
    (bankConfigured s p M).pincfg[bankOf p][cfgIndex p] &&& s.params.namedWord
      = (bankConfigured s p M).pincfg[bankOf p][cfgIndex p] := by
  rw [bankConfigured, afterCfgw, Bank.setPincfg_get, if_pos ⟨rfl, rfl⟩, BitVec.and_assoc, BitVec.and_self]

variable (hp : p ≤ 63)
include hp

/-- (a) of R161. -/
theorem encodes_bankConfigured : Encodes s.params (bankConfigured s p M) p M := by
  have hcfg : pinCfg (bankConfigured s p M) p &&& s.params.namedMask = modeByte s.params M := by
    rw [pinCfg_bankConfigured, modeByte_and_namedMask]
  have hdir (d : Bool) : pinDir (afterDir s.bank p d) p = d := (pinDir_afterDir s.bank d p p hp hp).trans (if_pos rfl)
  have hout (B : Bank) (l : Bool) : pinOut (afterOut B p l) p = l := (pinOut_afterOut B l p p hp hp).trans (if_pos rfl)
  have hmux (sel : Nibble) : pinMux (afterMuxw s p sel) p = sel := (pinMux_afterMuxw s p p sel hp hp).trans (if_pos rfl)
  cases M with
  | output => exact ⟨hdir true, hcfg⟩
  | input => exact ⟨hdir false, hcfg⟩
  | inputPulldown => exact ⟨hdir false, hout _ false, hcfg⟩
  | inputPullup => exact ⟨hdir false, hout _ true, hcfg⟩
  | peripheral sel | peripheralAlt sel => exact ⟨hcfg, hmux sel⟩
  | analog => exact ⟨hcfg, hmux s.params.analogSel⟩

/-- (b) of R161. -/
theorem bankConfigured_keeps_other_pins (q : Nat) (hq : q ≤ 63) (hne : q ≠ p) :
    pinDir (bankConfigured s p M) q = pinDir s.bank q ∧ pinOut (bankConfigured s p M) q = pinOut s.bank q
      ∧ pinCfg (bankConfigured s p M) q &&& s.params.namedMask = pinCfg s.bank q &&& s.params.namedMask
      ∧ pinMux (bankConfigured s p M) q = pinMux s.bank q := by
  have hcfg := pinCfg_afterCfgw_of_ne s (bankBeforeCfgw s p M) p q (modeByte s.params M) hp hq hne
  have hdir (d : Bool) : pinDir (afterDir s.bank p d) q = pinDir s.bank q :=
    (pinDir_afterDir s.bank d p q hp hq).trans (if_neg hne)
  have hout (B : Bank) (l : Bool) : pinOut (afterOut B p l) q = pinOut B q :=
    (pinOut_afterOut B l p q hp hq).trans (if_neg hne)
  have hmux (sel : Nibble) : pinMux (afterMuxw s p sel) q = pinMux s.bank q :=
    (pinMux_afterMuxw s p q sel hp hq).trans (if_neg hne)
  cases M with
  | output | input => exact ⟨hdir _, rfl, hcfg, rfl⟩
  | inputPulldown | inputPullup => exact ⟨hdir false, hout _ _, hcfg, rfl⟩
  | peripheral _ | peripheralAlt _ | analog => exact ⟨rfl, rfl, hcfg, hmux _⟩

end

/-- Settles O24. -/
theorem configureReachesItsMode : Obligations.ConfigureReachesItsMode := by
  intro s p M hP ha hp hf
  obtain ⟨hexec, hrun⟩ := configure_completes hP ha p M hf
  refine ⟨_, _, hexec, rfl, hrun, rfl, rfl, rfl, rfl, rfl, encodes_bankConfigured s p M hp,
    ⟨modeByte s.params M, ?_, getLsbD_modeByte s.params M⟩,
    fun i => ⟨?_, getLsbD_namedMask s.params i⟩, bankConfigured_keeps_other_pins s p M hp, ?_, ?_, ?_⟩
  · rw [State.accept_seq, commandSeq_configure]
    simp [cfgw]
  · exact (congrArg (·.getLsbD i.val) (pinCfg_bankConfigured s p M)).trans (getLsbD_modeByte s.params M i)
  · rintro (rfl | rfl) <;> exact ⟨rfl, rfl⟩
  · rintro (rfl | rfl) <;> rfl
  · rintro (⟨sel, rfl | rfl⟩ | rfl) <;> exact ⟨rfl, rfl⟩

/-! ## The same configure a second time (R162) -/

/-- A port that gives a bit the level it has leaves the register. -/
theorem portWord_maskOf_of_getLsbD (level : Bool) (p : Nat) (w : Word) (h : w.getLsbD (p % 32) = level) :
    portWord level (maskOf p) w = w := by
  apply BitVec.eq_of_getLsbD_eq
  intro i hi
  rw [getLsbD_portWord _ _ _ i hi, getLsbD_maskOf p i hi]
  split
  case isTrue hbit => rw [of_decide_eq_true hbit, h]
  case isFalse => rfl

theorem afterDir_of_pinDir (B : Bank) (p : Nat) (d : Bool) (h : pinDir B p = d) : afterDir B p d = B := by
  have hword := portWord_maskOf_of_getLsbD d p B.dir[bankOf p] h
  rw [portWord, maskOf] at hword
  rw [afterDir, bitWord, hword, Bank.setDir, Fin.getElem_fin, Vector.set_getElem_self]

theorem afterOut_of_pinOut (B : Bank) (p : Nat) (l : Bool) (h : pinOut B p = l) : afterOut B p l = B := by
  have hword := portWord_maskOf_of_getLsbD l p B.out[bankOf p] h
  rw [portWord, maskOf] at hword
  rw [afterOut, bitWord, hword, Bank.setOut, Fin.getElem_fin, Vector.set_getElem_self]

theorem afterMuxw_of_pinMux (s : State) (p : Nat) (sel : Nibble) (h : pinMux s.bank p = sel) :
    afterMuxw s p sel = s.bank := by
  rw [afterMuxw, ← muxShift_eq, ← h, pinMux, muxOf, insField_extField_same, Bank.setPmux]
  simp only [Fin.getElem_fin, Vector.set_getElem_self]

/-- Merging a field keeps agreement on the bits of a mask. -/
theorem insField_and_congr (w w' v m : Word) (pos n : Nat) (h : w &&& m = w' &&& m) :
    insField w pos n v &&& m = insField w' pos n v &&& m := by
  apply BitVec.eq_of_getLsbD_eq
  intro i hi
  rw [BitVec.getLsbD_and, BitVec.getLsbD_and, getLsbD_insField _ _ _ _ _ hi, getLsbD_insField _ _ _ _ _ hi]
  split
  case isTrue => rfl
  case isFalse => rw [← BitVec.getLsbD_and, h, BitVec.getLsbD_and]

/-- `CFGW` of the byte a pin already holds leaves the bank, whatever the draw, if the register holds no reserved bit. -/
theorem afterCfgw_of_pinCfg (s : State) (B : Bank) (p : Nat) (v : Byte) (h : pinCfg B p = v)
    (hcanonical : B.pincfg[bankOf p][cfgIndex p] &&& s.params.namedWord = B.pincfg[bankOf p][cfgIndex p]) :
    afterCfgw s B p v = B := by
  have hword : insField (cfgRead s B p) (8 * (p % 4)) 8 (v.setWidth 32) &&& s.params.namedWord
      = B.pincfg[bankOf p][cfgIndex p] := by
    rw [insField_and_congr _ _ _ _ _ _ (cfgRead_and_namedWord s B p), ← cfgShift_eq, ← h, pinCfg, cfgOf,
      insField_extField_same, hcanonical]
  rw [afterCfgw, Bank.setPincfg, hword]
  simp only [Fin.getElem_fin, Vector.set_getElem_self]

/-- Where a pin's registers encode a mode already, what a configure does before its `CFGW` leaves the bank. -/
theorem bankBeforeCfgw_of_encodes (s : State) (p : Nat) (M : Mode) (h : Encodes s.params s.bank p M) :
    bankBeforeCfgw s p M = s.bank := by
  cases M with
  | output | input =>
    obtain ⟨hdir, -⟩ := h
    exact afterDir_of_pinDir s.bank p _ hdir
  | inputPulldown | inputPullup =>
    obtain ⟨hdir, hout, -⟩ := h
    rw [bankBeforeCfgw, afterDir_of_pinDir s.bank p _ hdir, afterOut_of_pinOut s.bank p _ hout]
  | peripheral _ | peripheralAlt _ | analog =>
    obtain ⟨-, hmux⟩ := h
    exact afterMuxw_of_pinMux s p _ hmux

/-- A configure of the bank that the same configure left leaves it. -/
theorem bankConfigured_again (s u : State) (p : Nat) (M : Mode) (hp : p ≤ 63) (hparams : u.params = s.params)
    (hbank : u.bank = bankConfigured s p M) : bankConfigured u p M = u.bank := by
  have hencodes : Encodes u.params u.bank p M := by
    rw [hparams, hbank]
    exact encodes_bankConfigured s p M hp
  rw [bankConfigured, bankBeforeCfgw_of_encodes u p M hencodes]
  refine afterCfgw_of_pinCfg u u.bank p _ ?_ ?_
  · rw [hparams, hbank, pinCfg_bankConfigured]
  · rw [hparams, hbank, bankConfigured_pincfg_canonical]

/-- Settles O26: after the first configure the pin's registers encode the mode, so the second one changes nothing. -/
theorem configureIsIdempotent : Obligations.ConfigureIsIdempotent := by
  intro s p M hP ha hp hf
  obtain ⟨hexec1, hrun1⟩ := configure_completes hP ha p M hf
  obtain ⟨hexec2, hrun2⟩ :=
    configure_completes (s := s.completed (bankConfigured s p M) (cfgRead s s.bank p) 0 0 1) hP ha p M hf
  exact ⟨_, _, _, _, hexec1, hrun1, hexec2, hrun2, bankConfigured_again s _ p M hp rfl rfl⟩

/-! ## Analog is the alternate function with its selector; sequences are fixed (R144, R155, R160) -/

/-- Settles O27. -/
theorem analogIsAlternateWithItsSelector : Obligations.AnalogIsAlternateWithItsSelector :=
  fun _ _ => ⟨rfl, Iff.rfl⟩

/-- Settles O30: the checks and the sequence are functions of the command and the parameters. -/
theorem sequenceIgnoresTheBank : Obligations.SequenceIgnoresTheBank := by
  intro i s s' t t' hparams e e'
  cases hf : commandFault s.params i with
  | none =>
    rw [exec_accepts i s hf] at e
    rw [exec_accepts i s' (hparams ▸ hf)] at e'
    cases e
    cases e'
    exact ⟨rfl, fun _ => by rw [State.accept_seq, State.accept_seq, hparams]⟩
  | some c =>
    rw [exec_faults i s c hf] at e
    rw [exec_faults i s' c (hparams ▸ hf)] at e'
    cases e
    cases e'
    exact ⟨rfl, nofun⟩

end Sys2Proof.Machine
end

section
/-! PROOFS of 42_configure.md R161 among other agents (20_memory.md R76): whatever the others do short of a reset and of
writing the registers of the configure, the engine and those registers go as in the machine left alone with suitable draws. -/

namespace Sys2Proof.Machine

/-! ## The words of the register bank by location (10_state.md R31 to R38) -/

/-- The stored word behind a location: a port shows the register it drives, `IN` stores none. -/
def Bank.wordAt (B : Bank) : BankLoc → Word
  | .dir b | .dirclr b | .dirset b => B.dir[b]
  | .out b | .outclr b | .outset b => B.out[b]
  | .pmux b k => B.pmux[b][k]
  | .pincfg b k => B.pincfg[b][k]
  | .input _ => 0

/-- What the register behind a location holds after a write of `v` there. -/
def writtenWord (P : Params) (l : BankLoc) (v old : Word) : Word :=
  match l with
  | .dir _ | .out _ | .pmux _ _ => v
  | .dirset _ | .outset _ => old ||| v
  | .dirclr _ | .outclr _ => old &&& ~~~v
  | .pincfg _ _ => v &&& P.namedWord
  | .input _ => old

section

variable (P : Params) (B : Bank) (b : Fin 2) (v : Word) (l : BankLoc)

theorem Bank.wordAt_setDir : (B.setDir b v).wordAt l = if portRegister l = .dir b then v else B.wordAt l := by
  cases l with
  | dir c | dirclr c | dirset c =>
    simp only [Bank.wordAt, portRegister, Bank.setDir_dir, Vector.get_set_fin, BankLoc.dir.injEq]
  | _ => exact (if_neg nofun).symm

theorem Bank.wordAt_setOut : (B.setOut b v).wordAt l = if portRegister l = .out b then v else B.wordAt l := by
  cases l with
  | out c | outclr c | outset c =>
    simp only [Bank.wordAt, portRegister, Bank.setOut_out, Vector.get_set_fin, BankLoc.out.injEq]
  | _ => exact (if_neg nofun).symm

theorem Bank.wordAt_setPmux (k : Fin 4) :
    (B.setPmux b k v).wordAt l = if portRegister l = .pmux b k then v else B.wordAt l := by
  cases l with
  | pmux c m => simp only [Bank.wordAt, portRegister, Bank.setPmux_get, BankLoc.pmux.injEq]
  | _ => exact (if_neg nofun).symm

theorem Bank.wordAt_setPincfg (k : Fin 8) : (Bank.setPincfg P B b k v).wordAt l
    = if portRegister l = .pincfg b k then v &&& P.namedWord else B.wordAt l := by
  cases l with
  | pincfg c m => simp only [Bank.wordAt, portRegister, Bank.setPincfg_get, BankLoc.pincfg.injEq]
  | _ => exact (if_neg nofun).symm

end

/-- A write of one location changes the register behind it as `writtenWord` says, and no other. -/
theorem wordAt_of_bankWrite (l l' : BankLoc) (v : Word) (s s' : State) (e : bankWrite l v s = .next s') :
    s'.bank.wordAt l'
      = if portRegister l' = portRegister l then writtenWord s.params l v (s.bank.wordAt l) else s.bank.wordAt l' := by
  cases l with
  | dir b | dirset b | dirclr b => cases e; exact Bank.wordAt_setDir ..
  | out b | outset b | outclr b => cases e; exact Bank.wordAt_setOut ..
  | pmux b k =>
    simp only [bankWrite] at e
    split at e <;> cases e
    exact Bank.wordAt_setPmux ..
  | pincfg b k =>
    simp only [bankWrite] at e
    split at e <;> cases e
    exact Bank.wordAt_setPincfg ..
  | input b =>
    cases e
    split
    case isTrue h => cases l' <;> cases h; rfl
    case isFalse => rfl

/-! ## The registers a configure accesses (R161) -/

/-- They are named through every port that drives one of them. -/
theorem mem_configureLocs_of_portRegister (p : Nat) (M : Mode) (l l' : BankLoc) (hl' : l' ∈ configureLocs p M)
    (h : portRegister l' = portRegister l) : l ∈ configureLocs p M := by
  have hports (m : BankLoc) : m ∈ [BankLoc.dir (bankOf p), .dirclr (bankOf p), .dirset (bankOf p), .out (bankOf p),
      .outclr (bankOf p), .outset (bankOf p), cfgLoc p]
      ↔ portRegister m ∈ [BankLoc.dir (bankOf p), .out (bankOf p), cfgLoc p] := by
    cases m <;> simp [portRegister, cfgLoc]
  have hpacked (m : BankLoc) : m ∈ [muxLoc p, cfgLoc p] ↔ portRegister m ∈ [muxLoc p, cfgLoc p] := by
    cases m <;> simp [portRegister, cfgLoc, muxLoc]
  cases M with
  | output | input | inputPulldown | inputPullup => exact (hports l).2 (h ▸ (hports l').1 hl')
  | peripheral _ | peripheralAlt _ | analog => exact (hpacked l).2 (h ▸ (hpacked l').1 hl')

/-- The modes that may write `DIR` may write `OUT`. -/
theorem out_mem_configureLocs (p : Nat) (M : Mode) (h : .dir (bankOf p) ∈ configureLocs p M) :
    .out (bankOf p) ∈ configureLocs p M := by
  cases M with
  | output | input | inputPulldown | inputPullup => simp [configureLocs]
  | peripheral _ | peripheralAlt _ | analog => simp [configureLocs, muxLoc, cfgLoc] at h

/-- A micro-operation of a configure, by the location it accesses. -/
inductive ConfigureOp (P : Params) (p : Nat) (M : Mode) : MicroOp → Prop
  | wr (l : BankLoc) (hl : l ∈ configureLocs p M) (v : Word) : ConfigureOp P p M (.wr (regOffset P l) v)
  | wrm (l : BankLoc) (hl : l ∈ configureLocs p M) (pos n : Nat) (v : Word) :
    ConfigureOp P p M (.wrm (regOffset P l) pos n v)
  | rdCfg : ConfigureOp P p M (.rd (regOffset P (cfgLoc p)))
  | rdMux (hl : muxLoc p ∈ configureLocs p M) : ConfigureOp P p M (.rd (regOffset P (muxLoc p)))
  | finish (r0 : Resp0) (r1 : Word) : ConfigureOp P p M (.finish r0 r1)

theorem configureOp_of_mem_commandSeq (P : Params) (p : Nat) (M : Mode) :
    ∀ op ∈ commandSeq P (Instr.configure p M), ConfigureOp P p M op := by
  rw [commandSeq_configure]
  refine List.forall_mem_append.2 ⟨?_, ?_⟩
  · have hmuxw (hl : muxLoc p ∈ configureLocs p M) (sel : Nibble) : ∀ op ∈ muxw P p sel, ConfigureOp P p M op :=
      List.forall_mem_cons.2 ⟨.rdMux hl, List.forall_mem_singleton.2 (.wrm _ hl _ _ _)⟩
    cases M with
    | output | input => exact List.forall_mem_singleton.2 (.wr _ (by simp [configureLocs]) _)
    | inputPulldown | inputPullup =>
      exact List.forall_mem_cons.2 ⟨.wr _ (by simp [configureLocs]) _,
        List.forall_mem_singleton.2 (.wr _ (by simp [configureLocs]) _)⟩
    | peripheral _ | peripheralAlt _ | analog => exact hmuxw (.head _) _
  · exact List.forall_mem_cons.2 ⟨.rdCfg, List.forall_mem_cons.2 ⟨.wrm _ (cfgLoc_mem_configureLocs p M) _ _ _,
      List.forall_mem_singleton.2 (.finish _ _)⟩⟩

/-! ## Two machines with one engine and one content of those registers -/

/-- `g` mirrors `v`: the same engine, and the same words at the locations `ls`. -/
structure Mirrors (ls : List BankLoc) (v g : State) : Prop where
  engine : EngineKept v g
  bank : ∀ l ∈ ls, g.bank.wordAt l = v.bank.wordAt l

section

variable {ls : List BankLoc} {v v' g : State}

theorem Mirrors.of_left (h : Mirrors ls v v') (hg : Mirrors ls v g) : Mirrors ls v' g := by
  obtain ⟨⟨h1, h2, h3, h4, h5, h6, h7, h8⟩, hbank⟩ := h
  obtain ⟨⟨g1, g2, g3, g4, g5, g6, g7, g8⟩, hbank'⟩ := hg
  exact ⟨⟨g1.trans h1.symm, g2.trans h2.symm, g3.trans h3.symm, g4.trans h4.symm, g5.trans h5.symm, g6.trans h6.symm,
    g7.trans h7.symm, g8.trans h8.symm⟩, fun l hl => (hbank' l hl).trans (hbank l hl).symm⟩

theorem Mirrors.withBank (h : Mirrors ls v g) (B B' : Bank) (hB : ∀ l ∈ ls, B'.wordAt l = B.wordAt l) :
    Mirrors ls (v.withBank B) (g.withBank B') :=
  ⟨{ h.engine with }, hB⟩

theorem Mirrors.withLat (h : Mirrors ls v g) (w : Word) : Mirrors ls (v.withLat w) (g.withLat w) :=
  ⟨{ h.engine with lat := rfl }, h.bank⟩

theorem Mirrors.afterDraw (h : Mirrors ls v g) : Mirrors ls v.afterDraw g.afterDraw :=
  ⟨{ h.engine with }, h.bank⟩

theorem Mirrors.finish (h : Mirrors ls v g) (r0 r1 : Word) : Mirrors ls (v.finish r0 r1) (g.finish r0 r1) :=
  ⟨{ h.engine with st := rfl, rsp0 := rfl, rsp1 := rfl }, h.bank⟩

/-- What remains in `SEQ` is the engine's; the agenda is not. -/
theorem Mirrors.withSeq (h : Mirrors ls v g) (agenda : List Turn) (ops : List MicroOp) :
    Mirrors ls { v with agenda := agenda, seq := ops } (g.withSeq ops) :=
  ⟨{ h.engine with seq := rfl }, h.bank⟩

/-- A write of one of the locations does the same in both. -/
theorem bankWrite_mirrored (h : Mirrors ls v g) (l : BankLoc) (hl : l ∈ ls) (himpl : implemented v.params l = true)
    (w : Word) (e : bankWrite l w v = .next v') :
    ∃ g', bankWrite l w g = .next g' ∧ Mirrors ls v' g' ∧ g'.draws = g.draws := by
  rw [← h.engine.params] at himpl
  obtain ⟨g', e'⟩ := bankWrite_answers l w g himpl
  have hword (l' : BankLoc) := wordAt_of_bankWrite l l' w v v' e
  have hword' (l' : BankLoc) := wordAt_of_bankWrite l l' w g g' e'
  rcases bankWrite_cases l w v with ⟨B, hB⟩ | hB <;> rw [hB] at e <;> cases e
  rcases bankWrite_cases l w g with ⟨B', hB'⟩ | hB' <;> rw [hB'] at e' <;> cases e'
  refine ⟨_, hB', h.withBank B B' fun l' hl' => ?_, rfl⟩
  rw [State.withBank_bank] at hword hword'
  rw [hword, hword', h.engine.params, h.bank l hl, h.bank l' hl']

end

/-- A micro-operation of a configure does the same in both, if the mirror has the draws it takes to come. -/
theorem perform_mirrored {p : Nat} {M : Mode} {v v' : State} (hP : ParamsOk v.params)
    (himpl : ∀ l ∈ configureLocs p M, implemented v.params l = true) (op : MicroOp) (hop : ConfigureOp v.params p M op)
    (e : perform op v = .next v') :
    ∃ front : List Word, ∀ (g : State) (draws : List Word), Mirrors (configureLocs p M) v g → g.draws = front ++ draws →
      ∃ g', perform op g = .next g' ∧ Mirrors (configureLocs p M) v' g' ∧ g'.draws = draws := by
  cases hop with
  | wr l hl w =>
    rw [perform_wr _ v rfl hP] at e
    refine ⟨[], fun g draws hg hd => ?_⟩
    rw [perform_wr _ g hg.engine.params hP]
    obtain ⟨g', hg', hm, hd'⟩ := bankWrite_mirrored hg l hl (himpl l hl) w e
    exact ⟨g', hg', hm, hd'.trans hd⟩
  | wrm l hl pos n w =>
    rw [perform_wrm _ v rfl hP] at e
    refine ⟨[], fun g draws hg hd => ?_⟩
    rw [perform_wrm _ g hg.engine.params hP, hg.engine.lat]
    obtain ⟨g', hg', hm, hd'⟩ := bankWrite_mirrored hg l hl (himpl l hl) _ e
    exact ⟨g', hg', hm, hd'.trans hd⟩
  | rdMux hl =>
    have hr : bankRead (muxLoc p) v = .next (v.bank.wordAt (muxLoc p), v) := if_pos (himpl _ hl)
    rw [perform_rd _ v _ _ rfl hP _ hr] at e
    cases e
    refine ⟨[], fun g draws hg hd => ⟨_, perform_rd _ g _ _ hg.engine.params hP _ ?_, hg.withLat _, hd⟩⟩
    rw [← hg.bank _ hl]
    exact if_pos (hg.engine.params ▸ himpl _ hl)
  | rdCfg =>
    have hl := cfgLoc_mem_configureLocs p M
    have hr : bankRead (cfgLoc p) v = .next (cfgRead v v.bank p, v.afterDraw) := if_pos (himpl _ hl)
    rw [perform_rd _ v _ _ rfl hP _ hr] at e
    cases e
    refine ⟨[v.drawWord], fun g draws hg hd =>
      ⟨_, perform_rd _ g g.afterDraw _ hg.engine.params hP _ ?_, hg.afterDraw.withLat _, congrArg List.tail hd⟩⟩
    have hdraw : g.drawWord = v.drawWord := by rw [State.drawWord, hd]; rfl
    have hword : g.bank.pincfg[bankOf p][cfgIndex p] = v.bank.pincfg[bankOf p][cfgIndex p] := hg.bank _ hl
    have hread : cfgRead g g.bank p = cfgRead v v.bank p := by
      rw [cfgRead, pincfgWord, hdraw, hword, hg.engine.params]
      rfl
    rw [← hread]
    exact if_pos (hg.engine.params ▸ himpl _ hl)
  | finish r0 r1 =>
    cases e
    refine ⟨[], fun g draws hg hd => ⟨_, rfl, ?_, hd⟩⟩
    rw [hg.engine.lat]
    exact hg.finish _ r1

/-- An access to an address that is no location of `ls` reaches no location of `ls`. -/
theorem bankWrite_of_memWrite_next {s s' : State} {ls : List BankLoc} {addr w : Word} (e : memWrite addr w s = .next s')
    (hspares : ∀ l ∈ ls, addr ≠ busAddr s.params (regOffset s.params l)) : ∃ l, l ∉ ls ∧ bankWrite l w s = .next s' := by
  rw [memWrite] at e
  split at e
  case h_1 l hat =>
    have hoff := List.find?_some hat
    rw [beq_iff_eq] at hoff
    exact ⟨l, fun hl => hspares l hl (by rw [busAddr, hoff, BitVec.add_comm, BitVec.sub_add_cancel]), e⟩
  case h_2 => cases e

/-- A turn of another agent that is no reset and writes none of a configure's registers changes neither them nor the BUSY
engine. -/
theorem takeTurn_mirrored {p : Nat} {M : Mode} {v v' : State} (a : Turn) (agenda : List Turn) (hb : v.st = .busy)
    (ha : a ≠ .engine) (hspares : a.spares v.params (configureLocs p M))
    (e : takeTurn a { v with agenda := agenda } = .next v') : Mirrors (configureLocs p M) v v' := by
  have hr : ∀ d, a ≠ .engineReset d := by rintro d rfl; exact hspares
  have hp : ∀ d, a ≠ .platformReset d := by rintro d rfl; exact hspares
  rcases access_cases a _ v' e hr hp ha with
    ⟨_, _, _, _, _, ⟨hi, _, _⟩ | ⟨_, rfl⟩ | rfl⟩ | ⟨_, rfl⟩ | ⟨who, addr, n, w, B, rfl, hw, rfl⟩ | ⟨_, rfl | rfl⟩
  case inl.inl => exact absurd (hb.symm.trans hi) (by decide)
  case inr.inr.inl =>
    obtain ⟨l', hl', hwrite⟩ := bankWrite_of_memWrite_next hw hspares
    refine ⟨⟨rfl, rfl, rfl, rfl, rfl, rfl, rfl, rfl⟩, fun l hl => ?_⟩
    have hne : portRegister l ≠ portRegister l' := fun h => hl' (mem_configureLocs_of_portRegister p M l' l hl h)
    rw [wordAt_of_bankWrite l' l w _ _ hwrite, if_neg hne]
  -- Every other answer differs from `v` in the held writes, the words read, the draws and the agenda only.
  all_goals exact ⟨⟨rfl, rfl, rfl, rfl, rfl, rfl, rfl, rfl⟩, fun _ _ => rfl⟩

/-! ## A run among others, step by step -/

theorem run_succ_next (n : Nat) (s u : State) (h : run (n + 1) s = .next u) :
    ∃ s', step s = .next s' ∧ run n s' = .next u := by
  cases hs : step s with
  | next s' => exact ⟨s', rfl, run_succ n s s' hs ▸ h⟩
  | fault r | refused r =>
    have hc : Sys2Proof.core.step s = step s := rfl
    simp only [run, Host.Core.run, hc, hs] at h
    cases h

/-- A run takes turns off the agenda and adds none. -/
theorem run_agenda (n : Nat) : ∀ s u : State, run n s = .next u → u.agenda <:+ s.agenda := by
  induction n with
  | zero => intro s u h; cases h; exact List.suffix_rfl
  | succ n ih =>
    intro s u h
    obtain ⟨s', hs, hrun⟩ := run_succ_next n s u h
    have hu := ih s' u hrun
    rcases step_agenda s s' hs with ha | ⟨a, ha⟩
    · exact ha ▸ hu
    · exact ha ▸ hu.trans (List.suffix_cons a s'.agenda)

/-- A step in BUSY is the engine's next micro-operation, or a turn of another agent off the agenda. -/
theorem step_busy_cases (s s' : State) (hb : s.st = .busy) (e : step s = .next s') :
    (∃ agenda op ops, s.seq = op :: ops ∧ perform op { s with agenda := agenda, seq := ops } = .next s')
      ∨ ∃ a, s.agenda = a :: s'.agenda ∧ a ≠ .engine ∧ takeTurn a { s with agenda := s'.agenda } = .next s' := by
  have hengine (agenda : List Turn) (h : engineTurn { s with agenda := agenda } = .next s') :
      ∃ op ops, s.seq = op :: ops ∧ perform op { s with agenda := agenda, seq := ops } = .next s' := by
    rw [engineTurn_of_busy { s with agenda := agenda } hb, microStep] at h
    split at h
    case h_1 op ops hseq => exact ⟨op, ops, hseq, h⟩
    case h_2 => cases h
  rcases step_cases s with ⟨h, -⟩ | ⟨a, rest, ha, -, h⟩ <;> rw [h] at e
  · exact .inl ⟨s.agenda, hengine s.agenda e⟩
  · by_cases hae : a = .engine
    · subst hae
      exact .inl ⟨rest, hengine rest e⟩
    · have hrest : s'.agenda = rest := takeTurn_keeps_agenda a _ s' e
      exact .inr ⟨a, hrest ▸ ha, hae, hrest ▸ e⟩

/-- The premises of R161 among other agents, from any BUSY state on the way: `v` holds what is left of an accepted configure,
step `n` is the first after which the engine is IDLE, and the turns taken until then spare the configure's registers. -/
structure CarriedToFinish (p : Nat) (M : Mode) (n : Nat) (v u : State) : Prop where
  params : ParamsOk v.params
  accepted : commandFault v.params (Instr.configure p M) = none
  rest : v.seq <:+ commandSeq v.params (Instr.configure p M)
  run : run n v = .next u
  idle : u.st = .idle
  busy : ∀ k w, k < n → Machine.run k v = .next w → w.st = .busy
  spares : ∀ before, v.agenda = before ++ u.agenda → ∀ a ∈ before, a.spares v.params (configureLocs p M)

section

variable {p n : Nat} {M : Mode} {v v' u : State}

theorem CarriedToFinish.after_step (h : CarriedToFinish p M (n + 1) v u) (e : step v = .next v')
    (hparams : v'.params = v.params) (hseq : v'.seq <:+ v.seq) : CarriedToFinish p M n v' u where
  params := hparams ▸ h.params
  accepted := hparams ▸ h.accepted
  rest := hparams ▸ hseq.trans h.rest
  run := run_succ n v v' e ▸ h.run
  idle := h.idle
  busy k w hk hrun := h.busy (k + 1) w (Nat.succ_lt_succ hk) ((run_succ k v v' e).trans hrun)
  spares before hag a ha := by
    rw [hparams]
    rcases step_agenda v v' e with hv | ⟨b, hv⟩
    · exact h.spares before (hv ▸ hag) a ha
    · exact h.spares (b :: before) (by rw [hv, hag, List.cons_append]) a (List.mem_cons_of_mem b ha)

/-- A turn taken on the way spares the registers. -/
theorem CarriedToFinish.spares_head (h : CarriedToFinish p M (n + 1) v u) (e : step v = .next v') (a : Turn)
    (ha : v.agenda = a :: v'.agenda) : a.spares v.params (configureLocs p M) := by
  obtain ⟨before, hbefore⟩ := run_agenda n v' u (run_succ n v v' e ▸ h.run)
  exact h.spares (a :: before) (by rw [ha, ← hbefore, List.cons_append]) a (.head _)

/-- Once the engine is not BUSY the run is over. -/
theorem CarriedToFinish.eq_of_not_busy (h : CarriedToFinish p M n v u) (hb : v.st ≠ .busy) : v = u := by
  cases n with
  | zero => exact Host.Outcome.next.inj h.run
  | succ n => exact absurd (h.busy 0 v (Nat.succ_pos n) rfl) hb

end

/-- The engine's step on the way, done in a mirror left alone: as `perform_mirrored`, for the whole step. -/
theorem engineStep_mirrored {p : Nat} {M : Mode} {v v' : State} {agenda : List Turn} {op : MicroOp} {ops : List MicroOp}
    (hP : ParamsOk v.params) (hf : commandFault v.params (Instr.configure p M) = none)
    (hrest : v.seq <:+ commandSeq v.params (Instr.configure p M)) (hb : v.st = .busy) (hseq : v.seq = op :: ops)
    (e : perform op { v with agenda := agenda, seq := ops } = .next v') :
    ∃ front : List Word, ∀ (g : State) (draws : List Word), Mirrors (configureLocs p M) v g → Alone g →
      g.draws = front ++ draws →
        ∃ g', run v.seq.length g = run ops.length g' ∧ Mirrors (configureLocs p M) v' g' ∧ Alone g' ∧ g'.draws = draws := by
  obtain ⟨-, himpl⟩ := (commandFault_configure_eq_none_iff v.params p M).1 hf
  have hop := configureOp_of_mem_commandSeq v.params p M op (hrest.mem (hseq ▸ .head _))
  obtain ⟨front, hfront⟩ := perform_mirrored (v := { v with agenda := agenda, seq := ops }) hP himpl op hop e
  refine ⟨front, fun g draws hg ha hd => ?_⟩
  obtain ⟨g', hg', hm, hd'⟩ := hfront (g.withSeq ops) draws (hg.withSeq agenda ops) hd
  obtain ⟨-, -, hag, -⟩ := perform_keeps_seq_cmd_agenda op _ g' hg'
  exact ⟨g', hseq ▸ run_op ops.length g g' op ops ha (hg.engine.st.trans hb) (hg.engine.seq.trans hseq) hg', hm,
    hag.trans ha, hd'⟩

/-- `s` with the outside still and these draws to come. -/
def State.leftAlone (s : State) (draws : List Word) : State := { s with agenda := [], draws := draws }

theorem mirrors_accept_leftAlone (ls : List BankLoc) (s : State) (draws : List Word) (ops : List MicroOp) :
    Mirrors ls (s.accept ops) ((s.leftAlone draws).accept ops) :=
  ⟨⟨rfl, rfl, rfl, rfl, rfl, rfl, rfl, rfl⟩, fun _ _ => rfl⟩

/-- A configure among others ends as it ends in a mirror left alone, for suitable draws: by induction on the steps. A turn of
another agent keeps the mirror, the engine's micro-operation is done in it too. -/
theorem run_mirrored (p : Nat) (M : Mode) (u : State) (n : Nat) : ∀ v : State, CarriedToFinish p M n v u → v.st = .busy →
    ∃ draws : List Word, ∀ g : State, Mirrors (configureLocs p M) v g → Alone g → g.draws = draws →
      ∃ g', run v.seq.length g = .next g' ∧ Mirrors (configureLocs p M) u g' := by
  induction n with
  | zero =>
    intro v h hb
    cases h.run
    exact absurd (hb.symm.trans h.idle) (by decide)
  | succ n ih =>
    intro v h hb
    obtain ⟨v', e, -⟩ := run_succ_next n v u h.run
    rcases step_busy_cases v v' hb e with ⟨agenda, op, ops, hseq, hop⟩ | ⟨a, hag, hne, hturn⟩
    · have hparams := perform_keeps_params op { v with agenda := agenda, seq := ops } v' hop
      obtain ⟨hops, -, -, hst⟩ := perform_keeps_seq_cmd_agenda op { v with agenda := agenda, seq := ops } v' hop
      replace hops : v'.seq = ops := hops
      have h' : CarriedToFinish p M n v' u := h.after_step e hparams (by rw [hops, hseq]; exact List.suffix_cons op ops)
      obtain ⟨front, hfront⟩ := engineStep_mirrored h.params h.accepted h.rest hb hseq hop
      rcases hst with hst | ⟨r0, r1, rfl, hst⟩
      · obtain ⟨draws, hdraws⟩ := ih v' h' (hst.trans hb)
        refine ⟨front ++ draws, fun g hg ha hd => ?_⟩
        obtain ⟨g', hrun, hm, ha', hd'⟩ := hfront g draws hg ha hd
        rw [hrun, ← hops]
        exact hdraws g' hm ha' hd'
      · have hu : v' = u := h'.eq_of_not_busy (by rw [hst]; decide)
        have hnil : ops = [] := (rest_eq_nil_iff_finish v.params _ _ ops (hseq ▸ h.rest)).2 ⟨r0, r1, rfl⟩
        refine ⟨front ++ [], fun g hg ha hd => ?_⟩
        obtain ⟨g', hrun, hm, -, -⟩ := hfront g [] hg ha hd
        exact ⟨g', by rw [hrun, hnil]; rfl, hu ▸ hm⟩
    · have hm : Mirrors (configureLocs p M) v v' :=
        takeTurn_mirrored a v'.agenda hb hne (h.spares_head e a hag) hturn
      have h' : CarriedToFinish p M n v' u := h.after_step e hm.engine.params (hm.engine.seq ▸ List.suffix_rfl)
      obtain ⟨draws, hdraws⟩ := ih v' h' (hm.engine.st.trans hb)
      refine ⟨draws, fun g hg ha hd => ?_⟩
      rw [← hm.engine.seq]
      exact hdraws g (hm.of_left hg) ha hd

/-! ## What the mirrored registers say of the pins (40_resolver.md R107, 42_configure.md R160) -/

section

variable {ls : List BankLoc} {B B' : Bank} (h : ∀ l ∈ ls, B'.wordAt l = B.wordAt l) (q : Nat)
include h

theorem pinDir_congr (hl : .dir (bankOf q) ∈ ls) : pinDir B' q = pinDir B q :=
  congrArg (·.getLsbD (q % 32)) (h (.dir (bankOf q)) hl)

theorem pinOut_congr (hl : .out (bankOf q) ∈ ls) : pinOut B' q = pinOut B q :=
  congrArg (·.getLsbD (q % 32)) (h (.out (bankOf q)) hl)

theorem pinCfg_congr (hl : cfgLoc q ∈ ls) : pinCfg B' q = pinCfg B q :=
  congrArg (cfgOf q) (h (cfgLoc q) hl)

theorem pinMux_congr (hl : muxLoc q ∈ ls) : pinMux B' q = pinMux B q :=
  congrArg (muxOf q) (h (muxLoc q) hl)

end

/-- A mode is encoded in the registers its configure accesses. -/
theorem encodes_congr (P : Params) (B B' : Bank) (p : Nat) (M : Mode)
    (h : ∀ l ∈ configureLocs p M, B'.wordAt l = B.wordAt l) : Encodes P B' p M ↔ Encodes P B p M := by
  have hcfg := pinCfg_congr h p (cfgLoc_mem_configureLocs p M)
  cases M with
  | output | input | inputPulldown | inputPullup =>
    have hdir := pinDir_congr h p (by simp [configureLocs])
    have hout := pinOut_congr h p (by simp [configureLocs])
    simp only [Encodes, hcfg, hdir, hout]
  | peripheral _ | peripheralAlt _ | analog =>
    have hmux := pinMux_congr h p (.head _)
    simp only [Encodes, hcfg, hmux]

/-- A command answered BUSY has passed its checks (60_exceptions.md R181). -/
theorem accepted_of_busy (i : Instr) (s t : State) (e : exec i s = .next t) (hb : t.st = .busy) :
    commandFault s.params i = none ∧ t = s.accept (commandSeq s.params i) := by
  cases hf : commandFault s.params i with
  | none => rw [exec_accepts i s hf] at e; cases e; exact ⟨rfl, rfl⟩
  | some c => rw [exec_faults i s c hf] at e; cases e; cases hb

/-- Settles O25: the machine left alone, with the draws of `run_mirrored`, ends with `bankConfigured` in the registers of the
configure, and so does this run. -/
theorem configureReachesItsModeAmongOtherAgents : Obligations.ConfigureReachesItsModeAmongOtherAgents := by
  intro s t u p n M before hP hp e hb hag hspares hrun hidle hbusy
  obtain ⟨hf, rfl⟩ := accepted_of_busy _ s t e hb
  have hcarried : CarriedToFinish p M n (s.accept (commandSeq s.params (Instr.configure p M))) u :=
    ⟨hP, hf, List.suffix_rfl, hrun, hidle, hbusy, fun _ h => List.append_cancel_right (hag.symm.trans h) ▸ hspares⟩
  obtain ⟨draws, hmirror⟩ := run_mirrored p M u n _ hcarried hb
  obtain ⟨g, hrun', ⟨hengine, hbank'⟩⟩ := hmirror _ (mirrors_accept_leftAlone _ s draws _) rfl rfl
  obtain ⟨-, halone⟩ := configure_completes (s := s.leftAlone draws) hP rfl p M hf
  obtain rfl : State.completed _ _ _ _ _ _ = g := Host.Outcome.next.inj (halone.symm.trans hrun')
  have hbank : ∀ l ∈ configureLocs p M, u.bank.wordAt l = (bankConfigured (s.leftAlone draws) p M).wordAt l :=
    fun l hl => (hbank' l hl).symm
  refine ⟨hengine.rsp0.symm, hengine.rsp1.symm,
    (encodes_congr s.params _ _ p M hbank).2 (encodes_bankConfigured (s.leftAlone draws) p M hp), fun q hq hne => ?_, ?_⟩
  · obtain ⟨hdir, hout, hcfgq, hmux⟩ := bankConfigured_keeps_other_pins (s.leftAlone draws) p M hp q hq hne
    refine ⟨fun h => ?_, fun hl h => (pinMux_congr hbank q (h ▸ hl)).trans hmux, fun hl h =>
      ⟨(pinDir_congr hbank q (h ▸ hl)).trans hdir, (pinOut_congr hbank q (h ▸ out_mem_configureLocs p M hl)).trans hout⟩⟩
    rw [pinCfg_congr hbank q (h ▸ cfgLoc_mem_configureLocs p M)]
    exact hcfgq
  · rintro (rfl | rfl) <;> exact pinOut_congr hbank p (by simp [configureLocs])

end Sys2Proof.Machine
end

section
/-! PROOFS of 43_field_read.md R170 to R172: the packed-field reads, and that a selector a configure wrote reads back beside its
sibling's. -/

namespace Sys2Proof.Machine

/-! ## The byte of a configuration word as read (10_state.md R37, 40_resolver.md R107) -/

/-- The reserved bits of a configuration word read are the draw's, whatever is stored (10_state.md R37). -/
theorem cfgRead_and_not_namedWord (s : State) (B : Bank) (p : Nat) :
    cfgRead s B p &&& ~~~s.params.namedWord = s.drawWord &&& ~~~s.params.namedWord := by
  apply BitVec.eq_of_getLsbD_eq
  intro i hi
  simp only [cfgRead, pincfgWord, BitVec.getLsbD_and, BitVec.getLsbD_or, BitVec.getLsbD_not, hi]
  cases s.params.namedWord.getLsbD i <;> simp

theorem cfgOf_and_not_namedWord (P : Params) (p : Nat) (w : Word) :
    cfgOf p (w &&& ~~~P.namedWord) = cfgOf p w &&& ~~~P.namedMask := by
  apply BitVec.eq_of_getLsbD_eq
  intro i hi
  have hpos : cfgShift p + i < 32 := by have := cfgShift_fits p; omega
  have hbyte : (cfgShift p + i) % 8 = i := by rw [cfgShift_eq]; omega
  rw [cfgOf, cfgOf, BitVec.getLsbD_and, getLsbD_extField, getLsbD_extField]
  simp only [BitVec.getLsbD_and, BitVec.getLsbD_not, getLsbD_namedWord P _ hpos, hbyte, hpos, hi, decide_true, Bool.true_and]

/-! ## The commands' completion, whatever the offset table -/

section

variable (s : State) (p : Nat) (hP : ParamsOk s.params) (ha : Alone s) (hp : p ≤ 63)
include hP ha hp

theorem getcfg_completes (himpl : implemented s.params (cfgLoc p) = true) :
    Completes (.getcfg p) s
      (s.completed s.bank (cfgRead s s.bank p) ((cfgOf p (cfgRead s s.bank p)).setWidth 32) 0 1) := by
  refine completes_of_run_underway (.getcfg p) ((checkCfg_eq_none_iff s.params p).2 ⟨hp, himpl⟩) ?_
  have hread (rest : List MicroOp) : bankRead (cfgLoc p) (s.underway s.bank s.lat 0 rest)
      = .next (cfgRead s s.bank p, s.underway s.bank s.lat 1 rest) := by
    rw [← afterDraw_underway]
    exact if_pos himpl
  calc run 2 (s.underway s.bank s.lat 0 (seqGetcfg s.params p))
      = run 1 (s.underway s.bank (cfgRead s s.bank p) 1 [.finish (.latField (cfgShift p) 8) 0]) :=
        run_underway_rd hP ha (cfgLoc p) (hread _)
    _ = _ := run_underway_finish ha (.latField (cfgShift p) 8) 0

theorem getmux_completes (himpl : implemented s.params (muxLoc p) = true) :
    Completes (.getmux p) s
      (s.completed s.bank s.bank.pmux[bankOf p][muxIndex p] ((pinMux s.bank p).setWidth 32) 0 0) := by
  refine completes_of_run_underway (.getmux p) ((checkMux_eq_none_iff s.params p).2 ⟨hp, himpl⟩) ?_
  have hread (rest : List MicroOp) : bankRead (muxLoc p) (s.underway s.bank s.lat 0 rest)
      = .next (s.bank.pmux[bankOf p][muxIndex p], s.underway s.bank s.lat 0 rest) := if_pos himpl
  calc run 2 (s.underway s.bank s.lat 0 (seqGetmux s.params p))
      = run 1 (s.underway s.bank s.bank.pmux[bankOf p][muxIndex p] 0 [.finish (.latField (muxShift p) 4) 0]) :=
        run_underway_rd hP ha (muxLoc p) (hread _)
    _ = _ := run_underway_finish ha (.latField (muxShift p) 4) 0

end

/-! ## The statements (R170 to R172) -/

/-- Settles O19. -/
theorem getcfgCompletes : Obligations.GetcfgCompletes := by
  intro s p ⟨hP, hoff, ha, hp⟩ himpl
  obtain ⟨hexec, hrun⟩ := getcfg_completes s p hP ha hp himpl
  refine ⟨_, hexec, ?_, hrun, ?_, ?_⟩
  · rw [commandSeq, seqGetcfg, cfgRegOff_eq_offCfg hoff hp, cfgShift_eq]
  · rw [← cfgOf_and_namedWord, cfgRead_and_namedWord, cfgOf_and_namedWord, pinCfg]
  · rw [← cfgOf_and_not_namedWord, cfgRead_and_not_namedWord, cfgOf_and_not_namedWord]

/-- Settles O20. -/
theorem getmuxCompletes : Obligations.GetmuxCompletes := by
  intro s p ⟨hP, hoff, ha, hp⟩ himpl
  obtain ⟨hexec, hrun⟩ := getmux_completes s p hP ha hp himpl
  refine ⟨_, hexec, ?_, hrun⟩
  rw [commandSeq, seqGetmux, muxRegOff_eq_offMux hoff hp, muxShift_eq]

/-- Settles O29: the configure writes the pin's nibble and keeps every other pin's, and a `getmux` keeps the bank. The sibling
shares the pin's register, so it is implemented as well. -/
theorem nibbleReadsBackBesideItsSibling : Obligations.NibbleReadsBackBesideItsSibling := by
  intro s p M sel hP ha hp hf hM
  have hdiv : (p ^^^ 1) / 2 = p / 2 := xor_one_div_two p
  have hsibling : p ^^^ 1 ≤ 63 := by omega
  have hne : p ^^^ 1 ≠ p := by simp
  obtain ⟨-, himpls⟩ := (commandFault_configure_eq_none_iff s.params p M).1 hf
  have himpl : implemented s.params (muxLoc p) = true :=
    himpls _ (by rcases hM with rfl | rfl | ⟨rfl, -⟩ <;> exact .head _)
  have hencodes := encodes_bankConfigured s p M hp
  have hsel : pinMux (bankConfigured s p M) p = sel := by
    rcases hM with rfl | rfl | ⟨rfl, rfl⟩ <;> exact hencodes.2
  obtain ⟨-, -, -, hkept⟩ := bankConfigured_keeps_other_pins s p M hp (p ^^^ 1) hsibling hne
  obtain ⟨hexec1, hrun1⟩ := configure_completes hP ha p M hf
  obtain ⟨hexec2, hrun2⟩ := getmux_completes (s.completed (bankConfigured s p M) _ 0 0 1) p hP ha hp himpl
  obtain ⟨hexec3, hrun3⟩ := getmux_completes (State.completed (s.completed (bankConfigured s p M) _ 0 0 1) _ _ _ 0 0)
    (p ^^^ 1) hP ha hsibling ((mux_xor_one p hp).1 ▸ himpl)
  exact ⟨_, _, _, _, _, _, hexec1, hrun1, hexec2, hrun2, hexec3, hrun3,
    congrArg (BitVec.setWidth 32) hsel, congrArg (BitVec.setWidth 32) hkept⟩

end Sys2Proof.Machine
end

section
/-! PROOFS of 60_exceptions.md R180 to R191: which fault a command and a word raise, fault entry, that only a reset leaves FAULT,
and that a BUSY engine never faults. -/

namespace Sys2Proof.Machine

/-! ## The fault of a command: the range first, then its packed registers (R183, R184, R186) -/

/-- The packed registers of a command's pin that have to exist for it (R184). -/
def packedLocs : Instr → List BankLoc
  | .cfgOut p | .cfgIn p | .cfgPd p | .cfgPu p | .getcfg p | .rslvCfg p => [cfgLoc p]
  | .cfgPf p _ | .cfgPfa p _ | .cfgAn p => [cfgLoc p, muxLoc p]
  | .getmux p | .rslvMux p => [muxLoc p]
  | .setlvl _ _ | .getlvl _ | .rslvBit _ _ => []

/-- A command's checks are the range and then one for each of its packed registers. -/
theorem commandFault_eq_firstFault (P : Params) (i : Instr) :
    commandFault P i = firstFault (checkRange i.pin :: (packedLocs i).map (checkImpl P)) := by
  cases i <;> rfl

theorem firstFault_checkRange_cons (p : Nat) (cs : List (Option FaultCode)) :
    firstFault (checkRange p :: cs) = if 63 < p then some .pinRange else firstFault cs := by
  unfold checkRange
  split <;> rfl

theorem firstFault_map_checkImpl (P : Params) (ls : List BankLoc) :
    firstFault (ls.map (checkImpl P)) = if ∃ l ∈ ls, implemented P l = false then some .pinUnimpl else none := by
  induction ls with
  | nil => simp [firstFault]
  | cons l ls ih => cases h : implemented P l <;> simp [checkImpl, firstFault, h, ih]

theorem commandFault_eq (P : Params) (i : Instr) :
    commandFault P i = if 63 < i.pin then some .pinRange
      else if ∃ l ∈ packedLocs i, implemented P l = false then some .pinUnimpl else none := by
  rw [commandFault_eq_firstFault, firstFault_checkRange_cons, firstFault_map_checkImpl]

theorem checkInvalidMode_eq (p : Nat) :
    checkInvalidMode p = if 63 < p then some .pinRange else some .invalidMode :=
  firstFault_checkRange_cons p [some .invalidMode]

/-- A command on a pin in range faults PIN_UNIMPL if one of its packed registers is absent. -/
theorem exec_of_absent (i : Instr) (s : State) (l : BankLoc) (hp : i.pin ≤ 63) (hl : l ∈ packedLocs i)
    (habs : implemented s.params l = false) : exec i s = .next (s.enterFault .pinUnimpl) := by
  refine exec_faults i s .pinUnimpl ?_
  rw [commandFault_eq, if_neg (Nat.not_lt.2 hp), if_pos ⟨l, hl, habs⟩]

/-- Settles O34: each command of the first two lists has the register among its packed ones, and the last three have none. -/
theorem unimplementedRegistersFault : Obligations.UnimplementedRegistersFault := by
  intro s p sel l k hp
  have faults (loc : BankLoc) (habs : implemented s.params loc = false) (i : Instr) (huses : i.pin = p ∧ loc ∈ packedLocs i) :
      exec i s = .next (s.enterFault .pinUnimpl) :=
    exec_of_absent i s loc (huses.1.trans_le hp) huses.2 habs
  refine ⟨fun habs i hi => faults (cfgLoc p) habs i ?_, fun habs i hi => faults (muxLoc p) habs i ?_, fun i hi => ?_⟩
  · revert i
    simp [Instr.pin, packedLocs]
  · revert i
    simp [Instr.pin, packedLocs]
  · have hbit : commandFault s.params i = checkBit p := by
      revert i
      simp [commandFault]
    exact exec_accepts i s (hbit.trans ((checkBit_eq_none_iff p).2 hp))

/-! ## The fault of a word, by its fields (R185 to R187) -/

/-- The word's command uses a packed register of its pin that does not exist (R184). -/
abbrev UsesAbsentRegister (P : Params) (w : Word) : Prop :=
  (usesCfgRegister w ∧ implemented P (cfgLoc (pinField w).toNat) = false)
    ∨ (usesMuxRegister w ∧ implemented P (muxLoc (pinField w).toNat) = false)

theorem pinField_of_decode_cmd {w : Word} {i : Instr} (h : decode w = .cmd i) : (pinField w).toNat = i.pin := by
  unfold decode at h
  split_ifs at h
  exact (encode_of_decodeFields h).1.symm

/-- No command has MODE 7 in its `cfg` word (R88). -/
theorem mode_of_decode_cmd {w : Word} {i : Instr} (h : decode w = .cmd i) : ¬ (opField w = 1 ∧ modeField w = 7) := by
  obtain ⟨-, rfl⟩ := wellFormed_and_encode_eq_of_decode h
  cases i <;> simp [encode, opField_packWord, modeField_packWord]

/-- `OP` and `MODE` of a command's word say which packed registers the command uses. -/
theorem usesAbsentRegister_iff_of_decode_cmd (P : Params) {w : Word} {i : Instr} (h : decode w = .cmd i) :
    UsesAbsentRegister P w ↔ ∃ l ∈ packedLocs i, implemented P l = false := by
  have hpin := pinField_of_decode_cmd h
  obtain ⟨-, rfl⟩ := wellFormed_and_encode_eq_of_decode h
  rw [UsesAbsentRegister, hpin]
  cases i <;> simp [usesCfgRegister, usesMuxRegister, packedLocs, Instr.pin, encode, opField_packWord, modeField_packWord]

theorem decodeCfg_eq_invalidMode {p q : Nat} {mode : BitVec 3} {sel : BitVec 4} (h : decodeCfg p mode sel = .invalidMode q) :
    mode = 7 ∧ q = p := by
  unfold decodeCfg at h
  split_ifs at h
  cases h
  exact ⟨by bv_omega, rfl⟩

/-- INVALID_MODE is the outcome of a `cfg` word with MODE 7 alone (R93). -/
theorem fields_of_decode_invalidMode {w : Word} {p : Nat} (h : decode w = .invalidMode p) :
    (opField w = 1 ∧ modeField w = 7) ∧ p = (pinField w).toNat := by
  unfold decode decodeFields at h
  split_ifs at h with _ h1
  · obtain ⟨h7, hp⟩ := decodeCfg_eq_invalidMode h
    exact ⟨⟨h1, h7⟩, hp⟩
  · cases hk : Kind.ofCode? (modeField w) <;> simp [hk] at h

/-- The fault of a word that is not illegal: the first of PIN_RANGE, INVALID_MODE and PIN_UNIMPL that applies (R186, R187). -/
theorem wordFault_of_legal (P : Params) (w : Word) (hd : decode w ≠ .illegal) :
    wordFault P w = if 63 < (pinField w).toNat then some .pinRange
      else if opField w = 1 ∧ modeField w = 7 then some .invalidMode
      else if UsesAbsentRegister P w then some .pinUnimpl else none := by
  cases h : decode w with
  | cmd i =>
    simp only [wordFault, h, commandFault_eq, pinField_of_decode_cmd h, if_neg (mode_of_decode_cmd h),
      usesAbsentRegister_iff_of_decode_cmd P h]
  | invalidMode p =>
    obtain ⟨hmode, rfl⟩ := fields_of_decode_invalidMode h
    rw [wordFault, h, if_pos hmode]
    exact checkInvalidMode_eq _
  | illegal => exact absurd h hd

/-! ## Issue (R181, R183, R186) -/

section

variable {s : State} {w : Word}

theorem issue_of_wordFault {c : FaultCode} (hf : wordFault s.params w = some c) :
    issue w s = .next (State.enterFault c { s with cmd := w }) := by
  rcases issue_cases w s with ⟨c', hc, h⟩ | ⟨i, hd, hi, -⟩
  · cases hf.symm.trans hc
    exact h
  · rw [wordFault, hd] at hf
    cases hf.symm.trans hi

theorem issue_of_wordFault_none (hf : wordFault s.params w = none) :
    ∃ i, decode w = .cmd i ∧ issue w s = .next (State.accept (commandSeq s.params i) { s with cmd := w }) := by
  rcases issue_cases w s with ⟨c, hc, -⟩ | ⟨i, hd, -, h⟩
  · cases hf.symm.trans hc
  · exact ⟨i, hd, h⟩

end

/-- Settles O32: the word's fault decides the outcome, and each clause says which fault it is. -/
theorem issueReportsTheFirstFault : Obligations.IssueReportsTheFirstFault := by
  intro s w
  obtain ⟨t, ht⟩ := issue_answers w s
  have faulted {c : FaultCode} (hf : wordFault s.params w = some c) : t = State.enterFault c { s with cmd := w } := by
    cases ht.symm.trans (issue_of_wordFault hf)
    rfl
  refine ⟨t, ht, fun hd => ?_, fun hd hp => ?_, fun hd hp h1 h7 => ?_, fun hd hp hmode habs => ?_, fun hd hp hmode habs => ?_⟩
  · exact faulted (by rw [wordFault, hd])
  · exact faulted (by rw [wordFault_of_legal _ _ hd, if_pos hp])
  · exact faulted (by rw [wordFault_of_legal _ _ hd, if_neg (Nat.not_lt.2 hp), if_pos ⟨h1, h7⟩])
  · exact faulted (by rw [wordFault_of_legal _ _ hd, if_neg (Nat.not_lt.2 hp), if_neg hmode, if_pos habs])
  · have hnone : wordFault s.params w = none := by
      rw [wordFault_of_legal _ _ hd, if_neg (Nat.not_lt.2 hp), if_neg hmode, if_neg habs]
    obtain ⟨i, hi, h⟩ := issue_of_wordFault_none hnone
    cases ht.symm.trans h
    exact ⟨i, hi, rfl⟩

/-- Settles O33: the range is the first check of every command and of every legal word. -/
theorem outOfRangePinsFault : Obligations.OutOfRangePinsFault := by
  refine ⟨fun i s hp => exec_faults i s .pinRange ?_, fun w s hd hp => issue_of_wordFault (c := .pinRange) ?_⟩
  · rw [commandFault_eq, if_pos hp]
  · rw [wordFault_of_legal _ _ hd, if_pos hp]

/-! ## Fault entry, and what leaves FAULT (R182, R190) -/

theorem statusWord_of_fault (s : State) (h : s.st = .fault) : statusWord s = 0x2#32 ||| (s.errcode.setWidth 32 <<< 4) := by
  have hbusy : busyFlag s = 0 := by rw [busyFlag, h]; rfl
  have herr : errFlag s = 1 := by rw [errFlag, h]; rfl
  simp [statusWord, hbusy, herr, errcodeFlag, h]

/-- Settles O35. -/
theorem faultEntryIsPreciseAndShown : Obligations.FaultEntryIsPreciseAndShown :=
  fun s c => ⟨rfl, statusWord_of_fault (s.enterFault c) rfl⟩

/-- Settles O36: every move but a reset either starts outside FAULT or keeps the engine's registers. -/
theorem onlyResetLeavesFault : Obligations.OnlyResetLeavesFault := by
  intro s t hfault e hnr
  cases step_move s t e with
  | kept h => exact ⟨h.st.trans hfault, h.errcode, h.cmd, h.rsp0, h.rsp1, h.lat, h.seq⟩
  | reset hnext => exact absurd hnext hnr
  | fault hi => rw [hfault] at hi; cases hi
  | access hb => rw [hfault] at hb; cases hb
  | finish _ hb => rw [hfault] at hb; cases hb
  | accept hi => rw [hfault] at hi; cases hi

/-! ## A BUSY engine (R189, R191) -/

/-- A micro-operation never enters FAULT. -/
theorem microStep_st (s t : State) (hb : s.st = .busy) (e : microStep s = .next t) : t.st = .busy ∨ t.st = .idle := by
  unfold microStep at e
  split at e
  · obtain ⟨-, -, -, hst | ⟨_, _, _, hst⟩⟩ := perform_keeps_seq_cmd_agenda _ _ t e
    · exact .inl (hst.trans hb)
    · exact .inr hst
  · cases e

/-- Settles O37: the micro-operation answers, and the sound state it leaves is BUSY or IDLE, where `ERRCODE` is 0. -/
theorem busyEngineNeverFaults : Obligations.BusyEngineNeverFaults := by
  intro s hs hb
  obtain ⟨t, ht⟩ := microStep_answers s hs hb
  obtain ⟨⟨-, -, hengine, -⟩, -⟩ := microStep_keeps_sound s t hs hb ht
  refine ⟨t, (engineTurn_of_busy s hb).trans ht, ?_⟩
  rcases microStep_st s t hb ht with hst | hst
  · obtain ⟨hcode, hne, -⟩ := (engineOk_iff_of_busy t hst).1 hengine
    exact ⟨hcode, .inl ⟨hst, hne⟩⟩
  · obtain ⟨hseq, hcode⟩ := (engineOk_iff_of_idle t hst).1 hengine
    exact ⟨hcode, .inr ⟨hst, hseq⟩⟩

end Sys2Proof.Machine
end

section
/-! PROOFS of 70_reset_and_hazards.md R220: how many bus reads, bus writes and engine steps every command takes. The counts of
a sequence are the sums of its parts' counts, and `CFGW` and `MUXW` are one read and one write each. -/

namespace Sys2Proof.Machine

/-- The bus reads, bus writes and engine steps of a list of micro-operations: the columns of R220's table. -/
def accessCounts (ops : List MicroOp) : Nat × Nat × Nat :=
  (ops.countP MicroOp.reads, ops.countP MicroOp.writes, ops.length)

theorem accessCounts_append (ops rest : List MicroOp) :
    accessCounts (ops ++ rest) = accessCounts ops + accessCounts rest := by
  simp [accessCounts]

theorem accessCounts_finish (r0 : Resp0) (r1 : Word) : accessCounts [.finish r0 r1] = (0, 0, 1) := rfl

/-- A command of one read: `getlvl`, `getcfg`, `getmux`. -/
theorem accessCounts_rd_finish (a : Word) (r0 : Resp0) (r1 : Word) :
    accessCounts [.rd a, .finish r0 r1] = (1, 0, 2) := rfl

/-- A command of one write: `setlvl`. -/
theorem accessCounts_wr_finish (a v : Word) (r0 : Resp0) (r1 : Word) :
    accessCounts [.wr a v, .finish r0 r1] = (0, 1, 2) := rfl

/-! ## The configures (R140, R141) -/

theorem accessCounts_cfgw (P : Params) (p : Nat) (v : Byte) : accessCounts (cfgw P p v) = (1, 1, 2) := rfl

theorem accessCounts_muxw (P : Params) (p : Nat) (sel : Nibble) : accessCounts (muxw P p sel) = (1, 1, 2) := rfl

/-- What a mode costs before its `CFGW`: a write for each port register it sets, or one `MUXW`. -/
def prologueCounts : Mode → Nat × Nat × Nat
  | .output | .input => (0, 1, 1)
  | .inputPulldown | .inputPullup => (0, 2, 2)
  | .peripheral _ | .peripheralAlt _ | .analog => (1, 1, 2)

theorem accessCounts_modePrologue (P : Params) (p : Nat) (M : Mode) :
    accessCounts (modePrologue P p M) = prologueCounts M := by
  cases M with
  | output | input | inputPulldown | inputPullup => rfl
  | peripheral sel | peripheralAlt sel => exact accessCounts_muxw P p sel
  | analog => exact accessCounts_muxw P p P.analogSel

/-- After that every mode costs the read and the write of `CFGW`, and `FINISH`. -/
theorem accessCounts_configure (P : Params) (p : Nat) (M : Mode) :
    accessCounts (commandSeq P (Instr.configure p M)) = prologueCounts M + (1, 1, 3) := by
  rw [commandSeq_configure, accessCounts_append, accessCounts_append, accessCounts_modePrologue, accessCounts_cfgw,
    finishZero, accessCounts_finish]
  rfl

/-- Settles O50: the configures by their parts, every other command by its one access, if any, and `FINISH`. -/
theorem accessCountsAreTheTable : Obligations.AccessCountsAreTheTable := by
  intro P p sel l k
  have configure := accessCounts_configure P p
  simp only [List.forall_mem_cons, List.not_mem_nil, false_implies, implies_true, and_true]
  refine ⟨⟨?cfgOut, ?cfgIn⟩, ⟨?cfgPd, ?cfgPu⟩, ⟨?cfgPf, ?cfgPfa, ?cfgAn⟩, ?setlvl, ⟨?getlvl, ?getcfg, ?getmux⟩,
    ?rslvBit, ?rslvCfg, ?rslvMux⟩
  case cfgOut => exact configure .output
  case cfgIn => exact configure .input
  case cfgPd => exact configure .inputPulldown
  case cfgPu => exact configure .inputPullup
  case cfgPf => exact configure (.peripheral sel)
  case cfgPfa => exact configure (.peripheralAlt sel)
  case cfgAn => exact configure .analog
  case setlvl => exact accessCounts_wr_finish _ _ _ _
  case getlvl | getcfg | getmux => exact accessCounts_rd_finish _ _ _
  case rslvBit | rslvCfg | rslvMux => exact accessCounts_finish _ _

end Sys2Proof.Machine
end
